-- ==== Sys2Proof/Word.lean ====
section
/-! DEFINITION. The word types of the engine and their plainest arithmetic (spec/00_scope.md R5, R6). -/

namespace Sys2Proof

/-- A general register, the pc, an address: 64 bits (`XLEN`, R5). All arithmetic on it wraps modulo 2^64 (R6, D22). -/
abbrev Word := BitVec 64

/-- One byte of memory (R21). -/
abbrev Byte := BitVec 8

/-- One instruction word `iw`: 32 bits (`ILEN`, R5, R50). -/
abbrev InstrWord := BitVec 32

/-- A register number, the 5-bit fields `rd`, `rs1`, `rs2` of R51. -/
abbrev Reg := BitVec 5

/-- The pc of the next sequential instruction: `pc + 4`, modulo 2^64 (R13). -/
def Word.next (pc : Word) : Word := pc + 4

end Sys2Proof
end

