-- ==== Sys2Proof/Config.lean ====
section
/-! DEFINITION. The implementation parameters of spec/00_scope.md R5: the record of the platform's parameters, the launch
inputs, the register roles, the values `State.reset` takes for what the spec leaves open, and the one free value. -/

namespace Sys2Proof

/-- A run of addresses `base` to `base + size - 1` that memory backs. -/
structure Region where
  base : Nat
  size : Nat
deriving DecidableEq, Repr

/-- The parameters of R5 that a platform chooses: `SENTINEL` (D2), `STACK_BASE` (D4), `STACK_SIZE` (D3), and `Mapped` (D6)
as the regions memory backs besides the stack region, which is always backed (R20). DESIGN CHOICE (log 1): the record is
a field of State that no step changes, so that a statement about every state holds for every platform. -/
structure Platform where
  sentinel  : Word
  stackBase : Word
  stackSize : Nat
  regions   : List Region
deriving DecidableEq, Repr

/-- The inputs of the launch interface (R24, R200); all four arguments are mandatory (D27). -/
structure LaunchInputs where
  entry   : Word
  arg0    : Word
  arg1    : Word
  arg2    : Word
  arg3    : Word
  cacheEn : Bool
deriving DecidableEq, Repr

/-- The opaque handle to the instruction cache collaborator's contents (R10, R19). Its number has no meaning but that
`ICache.empty` is the emptied cache. -/
structure ICache where
  handle : Nat
deriving DecidableEq, Repr, Inhabited

/-- The cache as `cacheInit` leaves it (R202). -/
def ICache.empty : ICache := ⟨0⟩

namespace Config

/-- FREE VALUE, DESIGN CHOICE (log 10): what a lookup of the word `iw` at the address `pc` leaves in the cache. The spec gives
the collaborator no internals (R19, N24), so nothing is known of it. -/
opaque icacheAfterLookup : ICache → Word → InstrWord → ICache

/-- `SENTINEL`'s default value (R5, D2). -/
def defaultSentinel : Word := 0

/-- `STACK_SIZE`'s default value (R5, D3). -/
def defaultStackSize : Nat := 8192

/-- DESIGN CHOICE (log 2): the `STACK_BASE` of `State.reset`; the spec leaves it open (D4), and this is the value its own
test vectors use (95_test_vectors.md, conventions). -/
def resetStackBase : Word := 0x7FFF0000

/-- DESIGN CHOICE (log 3): the `Mapped` of `State.reset`, left open by D6: every address is backed. -/
def resetRegions : List Region := [⟨0, 2 ^ 64⟩]

/-- The platform of `State.reset` (logs 1 to 3). -/
def resetPlatform : Platform :=
  { sentinel := defaultSentinel, stackBase := resetStackBase, stackSize := defaultStackSize, regions := resetRegions }

/-- DESIGN CHOICE (log 4): the launch inputs of `State.reset`. The entry is the one of the spec's test vectors, a multiple
of 4 (R210); no argument, no cache. -/
def resetInputs : LaunchInputs :=
  { entry := 0x1000, arg0 := 0, arg1 := 0, arg2 := 0, arg3 := 0, cacheEn := false }

/-- DESIGN CHOICE (log 5): what a byte of memory reads as that no entry of the memory lists. -/
def unlistedByte : Byte := 0

end Config

/-- `REG_RA`, the link register (R12, D7). -/
def regRa : Reg := 1
/-- `REG_SP`, the stack pointer (R12, D7). -/
def regSp : Reg := 2
/-- `REG_A0`, the first argument and the return-value register `REG_RV` (R12, D7). -/
def regA0 : Reg := 10
/-- `REG_A1` (R12, D7). -/
def regA1 : Reg := 11
/-- `REG_A2` (R12, D7). -/
def regA2 : Reg := 12
/-- `REG_A3` (R12, D7). -/
def regA3 : Reg := 13

end Sys2Proof
end

