-- ==== Sys2Proof/Syntax.lean ====
section
/-! DEFINITION. The instructions: one constructor per row of spec/opcode_table.json (R62), each with the operands its rule
names. Immediates keep their encoded width; their sign extension is in Machine/Operands.lean. -/

namespace Sys2Proof

/-- The 29 instructions (30_encoding.md R62). -/
inductive Instr where
  -- R-type, 40_r_type.md
  | add  (rd rs1 rs2 : Reg)
  | sub  (rd rs1 rs2 : Reg)
  | mul  (rd rs1 rs2 : Reg)
  | sll  (rd rs1 rs2 : Reg)
  | srl  (rd rs1 rs2 : Reg)
  | sra  (rd rs1 rs2 : Reg)
  | divu (rd rs1 rs2 : Reg)
  | and  (rd rs1 rs2 : Reg)
  | remu (rd rs1 rs2 : Reg)
  -- I-arithmetic, 41_i_arith.md
  | addi (rd rs1 : Reg) (imm : BitVec 12)
  | slli (rd rs1 : Reg) (shamt : BitVec 6)
  | srli (rd rs1 : Reg) (shamt : BitVec 6)
  | srai (rd rs1 : Reg) (shamt : BitVec 6)
  -- loads, 42_loads.md
  | lb   (rd rs1 : Reg) (imm : BitVec 12)
  | lh   (rd rs1 : Reg) (imm : BitVec 12)
  | lw   (rd rs1 : Reg) (imm : BitVec 12)
  | ld   (rd rs1 : Reg) (imm : BitVec 12)
  -- indirect jump, 43_jalr.md; `rd` is an operand of the assembler form that the engine does not look at (R120)
  | jalr (rd rs1 : Reg) (imm : BitVec 12)
  -- stores, 44_stores.md
  | sb   (rs2 rs1 : Reg) (imm : BitVec 12)
  | sh   (rs2 rs1 : Reg) (imm : BitVec 12)
  | sw   (rs2 rs1 : Reg) (imm : BitVec 12)
  | sd   (rs2 rs1 : Reg) (imm : BitVec 12)
  -- branches, 45_branches.md; the offset is the 13-bit signed byte offset
  | beq  (rs1 rs2 : Reg) (imm : BitVec 13)
  | bne  (rs1 rs2 : Reg) (imm : BitVec 13)
  | blt  (rs1 rs2 : Reg) (imm : BitVec 13)
  | bge  (rs1 rs2 : Reg) (imm : BitVec 13)
  | bltu (rs1 rs2 : Reg) (imm : BitVec 13)
  | bgeu (rs1 rs2 : Reg) (imm : BitVec 13)
  -- direct jump, 46_jal.md; the offset is the 21-bit signed byte offset
  | jal  (rd : Reg) (imm : BitVec 21)
deriving DecidableEq, Repr

end Sys2Proof
end

