-- ==== Sys2Proof/WellFormed.lean ====
section
/-! DEFINITION. Which terms of `Instr` are instructions: the ones some word encodes. Register numbers, shift amounts and
12-bit immediates are bounded by their types; what is left is that a branch or jump offset is even (R58, R59, R60). -/

namespace Sys2Proof

/-- A branch offset `imm_B` has bit 0 clear (R58). -/
def branchOffsetOk (imm : BitVec 13) : Bool := !imm.getLsbD 0

/-- A jump offset `imm_J` has bit 0 clear (R59). -/
def jumpOffsetOk (imm : BitVec 21) : Bool := !imm.getLsbD 0

/-- The instruction can be encoded. -/
def Instr.wf : Instr → Bool
  | .beq _ _ imm => branchOffsetOk imm
  | .bne _ _ imm => branchOffsetOk imm
  | .blt _ _ imm => branchOffsetOk imm
  | .bge _ _ imm => branchOffsetOk imm
  | .bltu _ _ imm => branchOffsetOk imm
  | .bgeu _ _ imm => branchOffsetOk imm
  | .jal _ imm => jumpOffsetOk imm
  | .add _ _ _ | .sub _ _ _ | .mul _ _ _ | .sll _ _ _ | .srl _ _ _ | .sra _ _ _ | .divu _ _ _ | .and _ _ _
  | .remu _ _ _ => true
  | .addi _ _ _ | .slli _ _ _ | .srli _ _ _ | .srai _ _ _ => true
  | .lb _ _ _ | .lh _ _ _ | .lw _ _ _ | .ld _ _ _ | .jalr _ _ _ => true
  | .sb _ _ _ | .sh _ _ _ | .sw _ _ _ | .sd _ _ _ => true

end Sys2Proof
end

