-- ==== Sys2Proof/Decode.lean ====
section
/-! DEFINITION. The decoder, total on any bytes, and the encoder, both from spec/30_encoding.md. The decoder follows the
seven Format Executors (R63 to R66) and names the field of a word no instruction covers (R181, R183). -/

namespace Sys2Proof

/-! ## What a word outside the table reports -/

/-- The four field names of the fault record (R183). -/
inductive FaultKind where
  | opcode
  | funct3
  | funct7
  | shamtHi
deriving DecidableEq, Repr

/-- The record `(kind, value)` of `UnsupportedInstruction` (R180, R183): the field no instruction covers, with that field's
own bits. -/
inductive Unsupported where
  /-- `iw[6:0]`. -/
  | opcode  (value : BitVec 7)
  /-- `iw[14:12]`. -/
  | funct3  (value : BitVec 3)
  /-- `iw[31:25]`. -/
  | funct7  (value : BitVec 7)
  /-- `iw[31:26]`. -/
  | shamtHi (value : BitVec 6)
deriving DecidableEq, Repr

/-- `fault.kind` (R183). -/
def Unsupported.kind : Unsupported → FaultKind
  | .opcode _ => .opcode
  | .funct3 _ => .funct3
  | .funct7 _ => .funct7
  | .shamtHi _ => .shamtHi

/-- `fault.value`, the unsigned value of the field (R183). -/
def Unsupported.value : Unsupported → Nat
  | .opcode v => v.toNat
  | .funct3 v => v.toNat
  | .funct7 v => v.toNat
  | .shamtHi v => v.toNat

/-- The numeric code of a kind (R183, D25). -/
def FaultKind.code : FaultKind → Nat
  | .opcode => 0
  | .funct3 => 1
  | .funct7 => 2
  | .shamtHi => 3

/-- Why bytes are no instruction. `truncated`: fewer than the four bytes of a word (R50), which a fetch never gives
(log 19). `unsupported`: a word outside the table. -/
inductive DecodeError where
  | truncated
  | unsupported (r : Unsupported)
deriving DecidableEq, Repr

/-! ## Fields (R7, R51) -/

/-- `extractBits(word, startBit, width)` (R7); used only with `1 <= width` and `startBit + width <= 32`. -/
def extractBits (iw : InstrWord) (start width : Nat) : BitVec width := iw.extractLsb' start width

/-- `iw[6:0]`. -/
def opcodeOf (iw : InstrWord) : BitVec 7 := extractBits iw 0 7
/-- `iw[11:7]`. -/
def rdOf (iw : InstrWord) : Reg := extractBits iw 7 5
/-- `iw[14:12]`. -/
def funct3Of (iw : InstrWord) : BitVec 3 := extractBits iw 12 3
/-- `iw[19:15]`. -/
def rs1Of (iw : InstrWord) : Reg := extractBits iw 15 5
/-- `iw[24:20]`. -/
def rs2Of (iw : InstrWord) : Reg := extractBits iw 20 5
/-- `iw[31:25]`. -/
def funct7Of (iw : InstrWord) : BitVec 7 := extractBits iw 25 7
/-- `funct7[bit5]`, `iw[30]` (R51, C3). -/
def funct7Bit5 (iw : InstrWord) : Bool := iw.getLsbD 30
/-- `funct7[bit0]`, `iw[25]` (R51). -/
def funct7Bit0 (iw : InstrWord) : Bool := iw.getLsbD 25
/-- The shift amount of SLLI, SRLI, SRAI: `iw[25:20]` (R61). -/
def shamtOf (iw : InstrWord) : BitVec 6 := extractBits iw 20 6
/-- The high bits of a shift's immediate: `iw[31:26]` (R61). -/
def shamtHiOf (iw : InstrWord) : BitVec 6 := extractBits iw 26 6

/-! ## Immediates before sign extension (R56 to R60) -/

/-- `iw[31:20]` (R56). -/
def immIOf (iw : InstrWord) : BitVec 12 := extractBits iw 20 12
/-- `iw[31:25] ++ iw[11:7]` (R57). -/
def immSOf (iw : InstrWord) : BitVec 12 := extractBits iw 25 7 ++ extractBits iw 7 5
/-- `iw[31] ++ iw[7] ++ iw[30:25] ++ iw[11:8] ++ 0b0` (R58). -/
def immBOf (iw : InstrWord) : BitVec 13 :=
  extractBits iw 31 1 ++ extractBits iw 7 1 ++ extractBits iw 25 6 ++ extractBits iw 8 4 ++ 0#1
/-- `iw[31] ++ iw[19:12] ++ iw[20] ++ iw[30:21] ++ 0b0` (R59). -/
def immJOf (iw : InstrWord) : BitVec 21 :=
  extractBits iw 31 1 ++ extractBits iw 12 8 ++ extractBits iw 20 1 ++ extractBits iw 21 10 ++ 0#1

/-! ## The seven opcodes (R62, R63) -/

def opR : BitVec 7 := 0b0110011
def opIArith : BitVec 7 := 0b0010011
def opLoad : BitVec 7 := 0b0000011
def opJalr : BitVec 7 := 0b1100111
def opStore : BitVec 7 := 0b0100011
def opBranch : BitVec 7 := 0b1100011
def opJal : BitVec 7 := 0b1101111

/-! ## The decoder -/

/-- The R executor's selection by `(funct3, iw[30], iw[25])` (R64); the other five bits of funct7 are not looked at. -/
def decodeR (iw : InstrWord) : Except Unsupported Instr :=
  let rd := rdOf iw
  let rs1 := rs1Of iw
  let rs2 := rs2Of iw
  let badFunct7 : Except Unsupported Instr := .error (.funct7 (funct7Of iw))
  if funct3Of iw = 0 then
    match funct7Bit5 iw, funct7Bit0 iw with
    | false, false => .ok (.add rd rs1 rs2)
    | true, false => .ok (.sub rd rs1 rs2)
    | false, true => .ok (.mul rd rs1 rs2)
    | true, true => badFunct7
  else if funct3Of iw = 1 then
    match funct7Bit5 iw, funct7Bit0 iw with
    | false, false => .ok (.sll rd rs1 rs2)
    | true, false => badFunct7
    | false, true => badFunct7
    | true, true => badFunct7
  else if funct3Of iw = 5 then
    match funct7Bit5 iw, funct7Bit0 iw with
    | false, false => .ok (.srl rd rs1 rs2)
    | true, false => .ok (.sra rd rs1 rs2)
    | false, true => .ok (.divu rd rs1 rs2)
    | true, true => badFunct7
  else if funct3Of iw = 7 then
    match funct7Bit5 iw, funct7Bit0 iw with
    | false, false => .ok (.and rd rs1 rs2)
    | true, false => badFunct7
    | false, true => .ok (.remu rd rs1 rs2)
    | true, true => badFunct7
  else .error (.funct3 (funct3Of iw))

/-- The I-arithmetic executor's selection by funct3, then `iw[31:26]` for the shifts (R65). -/
def decodeIArith (iw : InstrWord) : Except Unsupported Instr :=
  let rd := rdOf iw
  let rs1 := rs1Of iw
  if funct3Of iw = 0 then .ok (.addi rd rs1 (immIOf iw))
  else if funct3Of iw = 1 then
    if shamtHiOf iw = 0b000000 then .ok (.slli rd rs1 (shamtOf iw))
    else .error (.shamtHi (shamtHiOf iw))
  else if funct3Of iw = 5 then
    if shamtHiOf iw = 0b000000 then .ok (.srli rd rs1 (shamtOf iw))
    else if shamtHiOf iw = 0b010000 then .ok (.srai rd rs1 (shamtOf iw))
    else .error (.shamtHi (shamtHiOf iw))
  else .error (.funct3 (funct3Of iw))

/-- The I-load executor's selection by funct3 (R66, R115). -/
def decodeLoad (iw : InstrWord) : Except Unsupported Instr :=
  let rd := rdOf iw
  let rs1 := rs1Of iw
  if funct3Of iw = 0 then .ok (.lb rd rs1 (immIOf iw))
  else if funct3Of iw = 1 then .ok (.lh rd rs1 (immIOf iw))
  else if funct3Of iw = 2 then .ok (.lw rd rs1 (immIOf iw))
  else if funct3Of iw = 3 then .ok (.ld rd rs1 (immIOf iw))
  else .error (.funct3 (funct3Of iw))

/-- The I-jalr executor: the opcode alone selects it (R66, R120). -/
def decodeJalr (iw : InstrWord) : Except Unsupported Instr :=
  .ok (.jalr (rdOf iw) (rs1Of iw) (immIOf iw))

/-- The S executor's selection by funct3 (R66). -/
def decodeStore (iw : InstrWord) : Except Unsupported Instr :=
  let rs1 := rs1Of iw
  let rs2 := rs2Of iw
  if funct3Of iw = 0 then .ok (.sb rs2 rs1 (immSOf iw))
  else if funct3Of iw = 1 then .ok (.sh rs2 rs1 (immSOf iw))
  else if funct3Of iw = 2 then .ok (.sw rs2 rs1 (immSOf iw))
  else if funct3Of iw = 3 then .ok (.sd rs2 rs1 (immSOf iw))
  else .error (.funct3 (funct3Of iw))

/-- The SB executor's selection by funct3 (R66, C4). -/
def decodeBranch (iw : InstrWord) : Except Unsupported Instr :=
  let rs1 := rs1Of iw
  let rs2 := rs2Of iw
  if funct3Of iw = 0 then .ok (.beq rs1 rs2 (immBOf iw))
  else if funct3Of iw = 1 then .ok (.bne rs1 rs2 (immBOf iw))
  else if funct3Of iw = 4 then .ok (.blt rs1 rs2 (immBOf iw))
  else if funct3Of iw = 5 then .ok (.bge rs1 rs2 (immBOf iw))
  else if funct3Of iw = 6 then .ok (.bltu rs1 rs2 (immBOf iw))
  else if funct3Of iw = 7 then .ok (.bgeu rs1 rs2 (immBOf iw))
  else .error (.funct3 (funct3Of iw))

/-- The UJ executor: the opcode alone selects it (R66, R150). -/
def decodeJal (iw : InstrWord) : Except Unsupported Instr :=
  .ok (.jal (rdOf iw) (immJOf iw))

/-- Opcode dispatch to exactly one executor (R63, R164), and the executor's own selection. -/
def decodeWord (iw : InstrWord) : Except Unsupported Instr :=
  if opcodeOf iw = opR then decodeR iw
  else if opcodeOf iw = opIArith then decodeIArith iw
  else if opcodeOf iw = opLoad then decodeLoad iw
  else if opcodeOf iw = opJalr then decodeJalr iw
  else if opcodeOf iw = opStore then decodeStore iw
  else if opcodeOf iw = opBranch then decodeBranch iw
  else if opcodeOf iw = opJal then decodeJal iw
  else .error (.opcode (opcodeOf iw))

/-- The word four bytes hold, the first at the lowest address: little-endian (R31). -/
def wordOfBytes (b0 b1 b2 b3 : Byte) : InstrWord := b3 ++ b2 ++ b1 ++ b0

/-- The four bytes of a word, the lowest address first: little-endian (R31). -/
def bytesOfWord (iw : InstrWord) : List Byte :=
  [extractBits iw 0 8, extractBits iw 8 8, extractBits iw 16 8, extractBits iw 24 8]

/-- Decode the instruction at the head of a list of bytes; the bytes after it are given back. -/
def decode : List Byte → Except DecodeError (Instr × List Byte)
  | b0 :: b1 :: b2 :: b3 :: rest =>
    match decodeWord (wordOfBytes b0 b1 b2 b3) with
    | .ok i => .ok (i, rest)
    | .error r => .error (.unsupported r)
  | _ => .error .truncated

/-! ## The encoder (R52, R62, R71)

Bits no rule looks at (R64, R66) are written as zeros (R67: a program should set them to zero). -/

/-- R format (R52). -/
def encR (funct7 : BitVec 7) (rs2 rs1 : Reg) (funct3 : BitVec 3) (rd : Reg) (opcode : BitVec 7) : InstrWord :=
  funct7 ++ rs2 ++ rs1 ++ funct3 ++ rd ++ opcode

/-- I format (R52; `enc_I`, R71). -/
def encI (imm : BitVec 12) (rs1 : Reg) (funct3 : BitVec 3) (rd : Reg) (opcode : BitVec 7) : InstrWord :=
  imm ++ rs1 ++ funct3 ++ rd ++ opcode

/-- I format, shift-immediate specialisation (R52). -/
def encShift (shamtHi shamt : BitVec 6) (rs1 : Reg) (funct3 : BitVec 3) (rd : Reg) (opcode : BitVec 7) : InstrWord :=
  shamtHi ++ shamt ++ rs1 ++ funct3 ++ rd ++ opcode

/-- S format (R52; `enc_S`, R71). -/
def encS (imm : BitVec 12) (rs2 rs1 : Reg) (funct3 : BitVec 3) (opcode : BitVec 7) : InstrWord :=
  imm.extractLsb' 5 7 ++ rs2 ++ rs1 ++ funct3 ++ imm.extractLsb' 0 5 ++ opcode

/-- SB format (R52; `enc_B`, R71). -/
def encB (imm : BitVec 13) (rs2 rs1 : Reg) (funct3 : BitVec 3) (opcode : BitVec 7) : InstrWord :=
  imm.extractLsb' 12 1 ++ imm.extractLsb' 5 6 ++ rs2 ++ rs1 ++ funct3 ++ imm.extractLsb' 1 4 ++ imm.extractLsb' 11 1
    ++ opcode

/-- UJ format (R52; `enc_J`, R71). -/
def encJ (imm : BitVec 21) (rd : Reg) (opcode : BitVec 7) : InstrWord :=
  imm.extractLsb' 20 1 ++ imm.extractLsb' 1 10 ++ imm.extractLsb' 11 1 ++ imm.extractLsb' 12 8 ++ rd ++ opcode

/-- The word of a well-formed instruction (R62). -/
def encode : Instr → InstrWord
  | .add rd rs1 rs2 => encR 0b0000000 rs2 rs1 0b000 rd opR
  | .sub rd rs1 rs2 => encR 0b0100000 rs2 rs1 0b000 rd opR
  | .mul rd rs1 rs2 => encR 0b0000001 rs2 rs1 0b000 rd opR
  | .sll rd rs1 rs2 => encR 0b0000000 rs2 rs1 0b001 rd opR
  | .srl rd rs1 rs2 => encR 0b0000000 rs2 rs1 0b101 rd opR
  | .sra rd rs1 rs2 => encR 0b0100000 rs2 rs1 0b101 rd opR
  | .divu rd rs1 rs2 => encR 0b0000001 rs2 rs1 0b101 rd opR
  | .and rd rs1 rs2 => encR 0b0000000 rs2 rs1 0b111 rd opR
  | .remu rd rs1 rs2 => encR 0b0000001 rs2 rs1 0b111 rd opR
  | .addi rd rs1 imm => encI imm rs1 0b000 rd opIArith
  | .slli rd rs1 shamt => encShift 0b000000 shamt rs1 0b001 rd opIArith
  | .srli rd rs1 shamt => encShift 0b000000 shamt rs1 0b101 rd opIArith
  | .srai rd rs1 shamt => encShift 0b010000 shamt rs1 0b101 rd opIArith
  | .lb rd rs1 imm => encI imm rs1 0b000 rd opLoad
  | .lh rd rs1 imm => encI imm rs1 0b001 rd opLoad
  | .lw rd rs1 imm => encI imm rs1 0b010 rd opLoad
  | .ld rd rs1 imm => encI imm rs1 0b011 rd opLoad
  | .jalr rd rs1 imm => encI imm rs1 0b000 rd opJalr
  | .sb rs2 rs1 imm => encS imm rs2 rs1 0b000 opStore
  | .sh rs2 rs1 imm => encS imm rs2 rs1 0b001 opStore
  | .sw rs2 rs1 imm => encS imm rs2 rs1 0b010 opStore
  | .sd rs2 rs1 imm => encS imm rs2 rs1 0b011 opStore
  | .beq rs1 rs2 imm => encB imm rs2 rs1 0b000 opBranch
  | .bne rs1 rs2 imm => encB imm rs2 rs1 0b001 opBranch
  | .blt rs1 rs2 imm => encB imm rs2 rs1 0b100 opBranch
  | .bge rs1 rs2 imm => encB imm rs2 rs1 0b101 opBranch
  | .bltu rs1 rs2 imm => encB imm rs2 rs1 0b110 opBranch
  | .bgeu rs1 rs2 imm => encB imm rs2 rs1 0b111 opBranch
  | .jal rd imm => encJ imm rd opJal

/-- The bytes of a well-formed instruction as memory holds them. -/
def encodeBytes (i : Instr) : List Byte := bytesOfWord (encode i)

/-! ## The host's question -/

/-- The word the host means by `nbits` and `w`: the bits above `nbits` are 0, and an instruction has 32 bits (R50). -/
def tableWord (nbits w : Nat) : InstrWord := BitVec.ofNat 32 (w % 2 ^ nbits)

/-- The instruction the decoder reads from that word, laid out as memory holds it. -/
def decodeTableWord (nbits w : Nat) : Option Instr :=
  match decode (bytesOfWord (tableWord nbits w)) with
  | .ok (i, _) => some i
  | .error _ => none

end Sys2Proof
end

