-- ==== Sys2Proof/Machine/State.lean ====
section
/-! DEFINITION. The architectural state of the engine (spec/10_state.md R10), the reasons a step can stop, and the state right
after reset. Plain data throughout. -/

namespace Sys2Proof.Machine

/-- The run state (R17). -/
inductive RunState where
  | running
  | stopped
  | faulted
deriving DecidableEq, Repr

/-- The seven analysis counters (R18), 64 bits each (D5). -/
structure Counters where
  total      : Word
  arith      : Word
  load       : Word
  store      : Word
  jump       : Word
  brTaken    : Word
  brNotTaken : Word
deriving DecidableEq, Repr

/-- The counters at launch: all seven 0 (R18). -/
def Counters.zero : Counters :=
  { total := 0, arith := 0, load := 0, store := 0, jump := 0, brTaken := 0, brNotTaken := 0 }

/-- The category counters, one of which a completed instruction increments (R166). -/
inductive Category where
  | arith
  | load
  | store
  | jump
  | brTaken
  | brNotTaken
deriving DecidableEq, Repr

/-- Memory `M` (R30) as a list of (address, byte) pairs in one canonical form: addresses strictly rising and below 2^64, no
entry equal to what an unlisted address reads as, `Config.unlistedByte` (`Memory.wf` in Machine/Ops.lean; log 5). Which
addresses exist at all is the platform's `Mapped`. -/
abbrev Memory := List Host.Cell

/-- The state of the engine (R10). `plat` is the model's own field: the platform's parameters, which nothing changes
(log 1). -/
structure State where
  /-- `x[0..31]` (R11); slot 0 is never read and never written, `State.readReg` and `State.writeReg` being the only ways
  in (log 18). -/
  regs    : Vector Word 32
  /-- The address of the next instruction to fetch (R13). -/
  pc      : Word
  /-- The run state (R17). -/
  run     : RunState
  /-- The fault record, there exactly when `run` is FAULTED (R17). -/
  fault   : Option Unsupported
  /-- The analysis counters (R18). -/
  cnt     : Counters
  /-- `cache_en` (R19). -/
  cacheEn : Bool
  /-- The instruction cache collaborator's contents (R19). -/
  icache  : ICache
  /-- Memory (R20, R21, R30). -/
  mem     : Memory
  /-- The platform's parameters (R5). -/
  plat    : Platform
deriving DecidableEq, Repr

/-- What an access to memory is for (R38). -/
inductive AccessKind where
  | fetch
  | load
  | store
deriving DecidableEq, Repr

/-- Why the model stops. The engine's one exception, `UnsupportedInstruction`, is not here: it is a next state (R182). -/
inductive Fault where
  /-- `MemoryViolation` (R37, D6, U1; log 8): an access some of whose bytes is not mapped; raised by the fetch, the loads and
  the stores, with the address of the access. Safe: the spec gives no behaviour there, and no byte and no register is
  written. -/
  | memoryViolation (kind : AccessKind) (addr : Word)
deriving DecidableEq, Repr

/-- Why the model gives no meaning. -/
inductive Refusal where
  /-- The instruction has no meaning yet: raised by an arm of `exec` only, and by none of them now. Safe: nothing follows
  from a refusal. -/
  | notModelled (mnemonic : String)
deriving DecidableEq, Repr

/-- What the status interface shows (R24). -/
structure Status where
  run    : RunState
  /-- `x[10]`, there only when `run` is STOPPED (R168; logs 9 and 21 for the other two run states). -/
  result : Option Word
  /-- The fault record, there only when `run` is FAULTED (R183). -/
  fault  : Option Unsupported
  cnt    : Counters
deriving DecidableEq, Repr

/-- The machine right after reset: the launch (R200, R201) with the inputs `Config.resetInputs` on the platform
`Config.resetPlatform`, memory with nothing listed (logs 2 to 5). `reset_is_launch` in Laws/State.lean says it is a value of
`launch`. -/
def State.reset : State :=
  { regs := (((((Vector.replicate 32 0).set 1 Config.defaultSentinel).set 2
        (Config.resetStackBase + BitVec.ofNat 64 Config.defaultStackSize)).set 10 Config.resetInputs.arg0).set 11
        Config.resetInputs.arg1).set 12 Config.resetInputs.arg2 |>.set 13 Config.resetInputs.arg3
    pc := Config.resetInputs.entry
    run := .running
    fault := none
    cnt := Counters.zero
    cacheEn := Config.resetInputs.cacheEn
    icache := ICache.empty
    mem := []
    plat := Config.resetPlatform }

end Sys2Proof.Machine
end

