-- ==== Sys2Proof/Machine/Ops.lean ====
section
/-! DEFINITION. The named operations every rule is written with (spec/00_scope.md R9): registers, memory, the counters, the
fetch, raising the one exception, stopping, the launch, the status. -/

namespace Sys2Proof.Machine

/-- What one step or one instruction answers. -/
abbrev StepResult := Host.Outcome State Fault Refusal

/-! ## General registers (R11) -/

/-- `x[i]`: register 0 reads as 0 (R11). -/
def State.readReg (s : State) (r : Reg) : Word :=
  if r = 0 then 0 else s.regs[r.toNat]'(r.isLt)

/-- `x[i] <- v`: a write to register 0 is discarded (R11). -/
def State.writeReg (s : State) (r : Reg) (v : Word) : State :=
  { s with regs := if r = 0 then s.regs else s.regs.set r.toNat v r.isLt }

/-! ## Which addresses exist (R20, R30) -/

/-- The address lies in the region. -/
def Region.holds (g : Region) (a : Word) : Bool :=
  decide (g.base ≤ a.toNat) && decide (a.toNat < g.base + g.size)

/-- The stack region, `STACK_SIZE` bytes from `STACK_BASE` (R20). -/
def stackRegion (p : Platform) : Region := ⟨p.stackBase.toNat, p.stackSize⟩

/-- `Mapped(a)` (R30): the stack region always is (R20), and what the platform maps besides. -/
def mapped (p : Platform) (a : Word) : Bool :=
  Region.holds (stackRegion p) a || p.regions.any fun g => Region.holds g a

/-- `Mapped((a + i) mod 2^64)` for every `i` below `n` (R32, R35). -/
def mappedRange (p : Platform) : Word → Nat → Bool
  | _, 0 => true
  | a, n + 1 => mapped p a && mappedRange p (a + 1) n

/-! ## One byte of memory -/

/-- The byte at a numeric address; `Config.unlistedByte` where nothing is listed (log 5). -/
def Memory.get : Memory → Nat → Byte
  | [], _ => Config.unlistedByte
  | (b, v) :: m, a => if a = b then v else Memory.get m a

/-- An entry in front of the rest, unless it says what an unlisted address reads as. -/
def Memory.consCell (a : Nat) (v : Byte) (rest : Memory) : Memory :=
  if v = Config.unlistedByte then rest else (a, v) :: rest

/-- `M[a] <- v`, keeping the canonical form. -/
def Memory.put : Memory → Nat → Byte → Memory
  | [], a, v => Memory.consCell a v []
  | (b, u) :: m, a, v =>
    if a < b then Memory.consCell a v ((b, u) :: m)
    else if a = b then Memory.consCell a v m
    else (b, u) :: Memory.put m a v

/-- The canonical form: addresses strictly rising and below 2^64, no entry equal to `Config.unlistedByte` (log 5). -/
def Memory.wf : Memory → Bool
  | [] => true
  | (a, v) :: m =>
    decide (a < 2 ^ 64) && !decide (v = Config.unlistedByte) && m.all (fun c => decide (a < c.1)) && Memory.wf m

/-- The byte at a 64-bit address. -/
def State.byteAt (s : State) (a : Word) : Byte := Memory.get s.mem a.toNat

/-! ## Accesses of several bytes (R31 to R35) -/

/-- The sum of R32: `M[(a + i) mod 2^64] * 2^(8 i)` over the `n` bytes from `a`, little-endian. -/
def loadBytes (m : Memory) : Word → Nat → Nat
  | _, 0 => 0
  | a, n + 1 => (Memory.get m a.toNat).toNat + 256 * loadBytes m (a + 1) n

/-- The writes of R33: byte `i` of `v` at `(a + i) mod 2^64`, for the `n` bytes from `a`. -/
def storeBytes (m : Memory) : Word → Nat → Word → Memory
  | _, 0, _ => m
  | a, n + 1, v => storeBytes (Memory.put m a.toNat (v.setWidth 8)) (a + 1) n (v >>> 8)

/-- `MemRead(a, n)` (R32), zero-extended to 64 bits; none where some byte is not mapped (R37). -/
def memRead (s : State) (a : Word) (n : Nat) : Option Word :=
  if mappedRange s.plat a n then some (BitVec.ofNat 64 (loadBytes s.mem a n)) else none

/-- `MemWrite(a, n, v)` (R33); none, and no byte written, where some byte is not mapped (R37). -/
def memWrite (s : State) (a : Word) (n : Nat) (v : Word) : Option State :=
  if mappedRange s.plat a n then some { s with mem := storeBytes s.mem a n v } else none

/-! ## Counters (R18, R166) and the end of an instruction -/

/-- One category counter incremented modulo 2^64. -/
def Counters.bump (c : Counters) : Category → Counters
  | .arith => { c with arith := c.arith + 1 }
  | .load => { c with load := c.load + 1 }
  | .store => { c with store := c.store + 1 }
  | .jump => { c with jump := c.jump + 1 }
  | .brTaken => { c with brTaken := c.brTaken + 1 }
  | .brNotTaken => { c with brNotTaken := c.brNotTaken + 1 }

/-- `cnt.total` incremented (R163). -/
def Counters.bumpTotal (c : Counters) : Counters := { c with total := c.total + 1 }

/-- The executor's last acts: the pc and the category counter (R14, R165). -/
def State.retire (s : State) (c : Category) (npc : Word) : State :=
  { s with pc := npc, cnt := s.cnt.bump c }

/-! ## The loop's parts (R160 to R163) -/

/-- No step is taken in STOPPED and FAULTED (R17, R160). -/
def State.terminal (s : State) : Bool := decide (s.run ≠ .running)

/-- The sentinel test (R161). -/
def State.atSentinel (s : State) : Bool := decide (s.pc = s.plat.sentinel)

/-- `run <- STOPPED` and nothing else (R161). -/
def State.stop (s : State) : State := { s with run := .stopped }

/-- The direct path of the fetch: `MemRead(pc, 4)` (R42, R162). -/
def directRead (s : State) : Option InstrWord := (memRead s s.pc 4).map (·.setWidth 32)

/-- `cacheLookup(cache, pc)`: by its contract the word a direct read returns (R42). -/
def cacheLookup (s : State) : Option InstrWord := directRead s

/-- The fetch, through the cache collaborator if `cache_en` is set (R42, R162). -/
def fetch (s : State) : Option InstrWord := if s.cacheEn then cacheLookup s else directRead s

/-- What the loop does between the fetch and the dispatch: `cnt.total + 1` (R163); and a cached fetch leaves the cache in
some state (R19, log 10). -/
def State.afterFetch (s : State) (iw : InstrWord) : State :=
  { s with
    cnt := s.cnt.bumpTotal
    icache := if s.cacheEn then Config.icacheAfterLookup s.icache s.pc iw else s.icache }

/-! ## The one exception (R180 to R185) -/

/-- `raise UnsupportedInstruction(kind, value)` (R182): the fault record and the run state, and nothing else. There is no
return from it (R185); only `launch` leaves FAULTED. -/
def raiseUnsupported (r : Unsupported) (s : State) : State :=
  { s with run := .faulted, fault := some r }

/-! ## The host's interface (R24) -/

/-- The registers at launch (R11, R12). -/
def launchRegs (p : Platform) (inp : LaunchInputs) : Vector Word 32 :=
  (((((Vector.replicate 32 0).set 1 p.sentinel).set 2 (p.stackBase + BitVec.ofNat 64 p.stackSize)).set 10
    inp.arg0).set 11 inp.arg1).set 12 inp.arg2 |>.set 13 inp.arg3

/-- The launch (R200 to R203), allowed in any run state. `image` is memory at launch: `MEM0` outside the stack region and
any content inside it (R201, D6, D31), both free inputs. The platform stays. -/
def launch (inp : LaunchInputs) (image : Memory) (s : State) : State :=
  { regs := launchRegs s.plat inp
    pc := inp.entry
    run := .running
    fault := none
    cnt := Counters.zero
    cacheEn := inp.cacheEn
    icache := ICache.empty
    mem := image
    plat := s.plat }

/-- `result` of the status interface: `x[10]` when STOPPED (R168); not there in FAULTED (R168, U13, log 9) and, by the model's
choice, in RUNNING (log 21). -/
def State.result (s : State) : Option Word :=
  if s.run = .stopped then some (s.readReg regA0) else none

/-- The status interface (R24). -/
def State.status (s : State) : Status :=
  { run := s.run
    result := s.result
    fault := if s.run = .faulted then s.fault else none
    cnt := s.cnt }

/-! ## Placing an instruction where the next step fetches it (log 6) -/

/-- The four one-byte regions of a fetch at `pc`. -/
def fetchRegions (pc : Word) : List Region :=
  [⟨pc.toNat, 1⟩, ⟨(pc + 1).toNat, 1⟩, ⟨(pc + 2).toNat, 1⟩, ⟨(pc + 3).toNat, 1⟩]

/-- What a fetch at the pc needs, changed only where it is not so already: the run is RUNNING, the pc is not `SENTINEL`, and
the four bytes are mapped. -/
def State.makeFetchable (s : State) : State :=
  { s with
    run := .running
    fault := if s.run = .running then s.fault else none
    plat :=
      { s.plat with
        sentinel := if s.pc = s.plat.sentinel then s.pc + 1 else s.plat.sentinel
        regions := if mappedRange s.plat s.pc 4 then s.plat.regions else fetchRegions s.pc ++ s.plat.regions } }

/-- The word in memory at the pc, little-endian. -/
def State.putWordAtPc (s : State) (iw : InstrWord) : State :=
  { s with mem := storeBytes s.mem s.pc 4 (iw.setWidth 64) }

end Sys2Proof.Machine
end

