-- ==== Sys2Proof/Machine/Flags.lean ====
section
/-! DEFINITION. The engine has no flags (R15): no instruction writes one, and a branch compares two registers directly. What
stands here is therefore the six relations of the branches (R136 to R141), the only conditions there are. -/

namespace Sys2Proof.Machine

/-- All 64 bits equal (R136). -/
def condEq (x y : Word) : Bool := decide (x = y)

/-- Not all 64 bits equal (R137). -/
def condNe (x y : Word) : Bool := !decide (x = y)

/-- `s64(x) < s64(y)` (R138). -/
def condLt (x y : Word) : Bool := decide (x.toInt < y.toInt)

/-- `s64(x) >= s64(y)` (R139). -/
def condGe (x y : Word) : Bool := decide (y.toInt ≤ x.toInt)

/-- `u64(x) < u64(y)` (R140). -/
def condLtu (x y : Word) : Bool := decide (x.toNat < y.toNat)

/-- `u64(x) >= u64(y)` (R141). -/
def condGeu (x y : Word) : Bool := decide (y.toNat ≤ x.toNat)

end Sys2Proof.Machine
end

