-- ==== Sys2Proof/Machine/Operands.lean ====
section
/-! DEFINITION. The operand forms: sign extension (R8), the immediates as 64-bit values (R56 to R59), the one addressing mode
(R110, R125), the shift amount in a register (R84). -/

namespace Sys2Proof.Machine

/-- `sext_w(v)` (R8): the low `w` bits of `v`, bit `w - 1` copied above them. Bits at and above `w` are ignored (D36). Used
with `w` in 8, 16, 32 on loaded values; the rule leaves `w = 0` undefined, and nothing here uses it (log 20). -/
def sext (w : Nat) (v : Word) : Word := (v.setWidth w).signExtend 64

/-- `imm_I` and `imm_S` as 64-bit values: `sext_12` of the field (R56, R57). -/
def imm12 (imm : BitVec 12) : Word := imm.signExtend 64

/-- `imm_B`: `sext_13` of the field with its appended zero (R58, R60, C6). -/
def imm13 (imm : BitVec 13) : Word := imm.signExtend 64

/-- `imm_J`: `sext_21` of the field with its appended zero (R59, R60, C6). -/
def imm21 (imm : BitVec 21) : Word := imm.signExtend 64

/-- `ea = (x[rs1] + imm) mod 2^64`, the address of a load (R110) and of a store (R125). -/
def State.effAddr (s : State) (rs1 : Reg) (imm : BitVec 12) : Word := s.readReg rs1 + imm12 imm

/-- `sh = x[rs2][5:0]` (R84, D12). -/
def State.shiftAmount (s : State) (rs2 : Reg) : Nat := (s.readReg rs2).toNat % 64

end Sys2Proof.Machine
end

