-- ==== Sys2Proof/Machine/Branches.lean ====
section
/-! DEFINITION. The SB executor (spec/45_branches.md R135 to R142). -/

namespace Sys2Proof.Machine

/-- The common effect of R135: taken, `pc + imm_B` and `cnt.br_taken + 1`; else `pc + 4` and `cnt.br_not_taken + 1`. Which
counter is decided by the condition alone (R142). -/
def branchOp (cond : Bool) (imm : BitVec 13) (s : State) : StepResult :=
  .next (if cond then s.retire .brTaken (s.pc + imm13 imm) else s.retire .brNotTaken s.pc.next)

/-- BEQ (R136). -/
def execBeq (rs1 rs2 : Reg) (imm : BitVec 13) (s : State) : StepResult :=
  branchOp (condEq (s.readReg rs1) (s.readReg rs2)) imm s

/-- BNE (R137). -/
def execBne (rs1 rs2 : Reg) (imm : BitVec 13) (s : State) : StepResult :=
  branchOp (condNe (s.readReg rs1) (s.readReg rs2)) imm s

/-- BLT (R138). -/
def execBlt (rs1 rs2 : Reg) (imm : BitVec 13) (s : State) : StepResult :=
  branchOp (condLt (s.readReg rs1) (s.readReg rs2)) imm s

/-- BGE (R139). -/
def execBge (rs1 rs2 : Reg) (imm : BitVec 13) (s : State) : StepResult :=
  branchOp (condGe (s.readReg rs1) (s.readReg rs2)) imm s

/-- BLTU (R140). -/
def execBltu (rs1 rs2 : Reg) (imm : BitVec 13) (s : State) : StepResult :=
  branchOp (condLtu (s.readReg rs1) (s.readReg rs2)) imm s

/-- BGEU (R141). -/
def execBgeu (rs1 rs2 : Reg) (imm : BitVec 13) (s : State) : StepResult :=
  branchOp (condGeu (s.readReg rs1) (s.readReg rs2)) imm s

end Sys2Proof.Machine
end

