-- ==== Sys2Proof/Machine/RType.lean ====
section
/-! DEFINITION. The R executor (spec/40_r_type.md R80 to R90). -/

namespace Sys2Proof.Machine

/-- The common effect of R80 and R100: `x[rd] <- result`, `pc <- pc + 4`, `cnt.arith + 1`. -/
def arithOp (rd : Reg) (result : Word) (s : State) : StepResult :=
  .next ((s.writeReg rd result).retire .arith s.pc.next)

/-- DIVU's result (R87, D18): all ones for a zero divisor. -/
def divuResult (x y : Word) : Word :=
  if y = 0 then BitVec.allOnes 64 else BitVec.ofNat 64 (x.toNat / y.toNat)

/-- REMU's result (R89, D18): the dividend for a zero divisor. -/
def remuResult (x y : Word) : Word :=
  if y = 0 then x else BitVec.ofNat 64 (x.toNat % y.toNat)

/-- ADD (R81). -/
def execAdd (rd rs1 rs2 : Reg) (s : State) : StepResult :=
  arithOp rd (s.readReg rs1 + s.readReg rs2) s

/-- SUB (R82). -/
def execSub (rd rs1 rs2 : Reg) (s : State) : StepResult :=
  arithOp rd (s.readReg rs1 - s.readReg rs2) s

/-- MUL (R83): the low 64 bits of the product. -/
def execMul (rd rs1 rs2 : Reg) (s : State) : StepResult :=
  arithOp rd (s.readReg rs1 * s.readReg rs2) s

/-- SLL (R84). -/
def execSll (rd rs1 rs2 : Reg) (s : State) : StepResult :=
  arithOp rd (s.readReg rs1 <<< s.shiftAmount rs2) s

/-- SRL (R85). -/
def execSrl (rd rs1 rs2 : Reg) (s : State) : StepResult :=
  arithOp rd (s.readReg rs1 >>> s.shiftAmount rs2) s

/-- SRA (R86). -/
def execSra (rd rs1 rs2 : Reg) (s : State) : StepResult :=
  arithOp rd ((s.readReg rs1).sshiftRight (s.shiftAmount rs2)) s

/-- DIVU (R87). -/
def execDivu (rd rs1 rs2 : Reg) (s : State) : StepResult :=
  arithOp rd (divuResult (s.readReg rs1) (s.readReg rs2)) s

/-- AND (R88). -/
def execAnd (rd rs1 rs2 : Reg) (s : State) : StepResult :=
  arithOp rd (s.readReg rs1 &&& s.readReg rs2) s

/-- REMU (R89). -/
def execRemu (rd rs1 rs2 : Reg) (s : State) : StepResult :=
  arithOp rd (remuResult (s.readReg rs1) (s.readReg rs2)) s

end Sys2Proof.Machine
end

