-- ==== Sys2Proof/Machine/IArith.lean ====
section
/-! DEFINITION. The I-arithmetic executor (spec/41_i_arith.md R100 to R105). "li" is ADDI with rs1 = 0 (R105). -/

namespace Sys2Proof.Machine

/-- ADDI (R101). -/
def execAddi (rd rs1 : Reg) (imm : BitVec 12) (s : State) : StepResult :=
  arithOp rd (s.readReg rs1 + imm12 imm) s

/-- SLLI (R102). -/
def execSlli (rd rs1 : Reg) (shamt : BitVec 6) (s : State) : StepResult :=
  arithOp rd (s.readReg rs1 <<< shamt.toNat) s

/-- SRLI (R103). -/
def execSrli (rd rs1 : Reg) (shamt : BitVec 6) (s : State) : StepResult :=
  arithOp rd (s.readReg rs1 >>> shamt.toNat) s

/-- SRAI (R104). -/
def execSrai (rd rs1 : Reg) (shamt : BitVec 6) (s : State) : StepResult :=
  arithOp rd ((s.readReg rs1).sshiftRight shamt.toNat) s

end Sys2Proof.Machine
end

