-- ==== Sys2Proof/Machine/Jumps.lean ====
section
/-! DEFINITION. The I-jalr executor (spec/43_jalr.md R120) and the UJ executor (spec/46_jal.md R150). -/

namespace Sys2Proof.Machine

/-- JALR (R120): `pc <- x[rs1] + imm_I` as it is, bit 0 kept (D28); no register is written whatever `rd` is;
`cnt.jump + 1`. -/
def execJalr (_rd rs1 : Reg) (imm : BitVec 12) (s : State) : StepResult :=
  .next (s.retire .jump (s.readReg rs1 + imm12 imm))

/-- JAL (R150): `x[rd] <- pc + 4` for `rd` not 0, `pc <- pc + imm_J`, `cnt.jump + 1`. -/
def execJal (rd : Reg) (imm : BitVec 21) (s : State) : StepResult :=
  .next ((s.writeReg rd s.pc.next).retire .jump (s.pc + imm21 imm))

end Sys2Proof.Machine
end

