-- ==== Sys2Proof/Machine/Loads.lean ====
section
/-! DEFINITION. The I-load executor (spec/42_loads.md R110 to R115). -/

namespace Sys2Proof.Machine

/-- The common effect of R110: `n` bytes read at `ea`, even for `rd = 0` (D35); `x[rd]` gets them extended; `pc + 4`;
`cnt.load + 1`. Unmapped bytes: `MemoryViolation` (R37). -/
def loadOp (n : Nat) (extend : Word → Word) (rd rs1 : Reg) (imm : BitVec 12) (s : State) : StepResult :=
  match memRead s (s.effAddr rs1 imm) n with
  | some v => .next ((s.writeReg rd (extend v)).retire .load s.pc.next)
  | none => .fault (.memoryViolation .load (s.effAddr rs1 imm))

/-- LB (R111, C1): sign-extended. -/
def execLb (rd rs1 : Reg) (imm : BitVec 12) (s : State) : StepResult := loadOp 1 (sext 8) rd rs1 imm s

/-- LH (R112, D17): sign-extended. -/
def execLh (rd rs1 : Reg) (imm : BitVec 12) (s : State) : StepResult := loadOp 2 (sext 16) rd rs1 imm s

/-- LW (R113, D17): sign-extended. -/
def execLw (rd rs1 : Reg) (imm : BitVec 12) (s : State) : StepResult := loadOp 4 (sext 32) rd rs1 imm s

/-- LD (R114): all 64 bits come from memory. -/
def execLd (rd rs1 : Reg) (imm : BitVec 12) (s : State) : StepResult := loadOp 8 (sext 64) rd rs1 imm s

end Sys2Proof.Machine
end

