-- ==== Sys2Proof/Machine/Stores.lean ====
section
/-! DEFINITION. The S executor (spec/44_stores.md R125 to R129). -/

namespace Sys2Proof.Machine

/-- The common effect of R125: the low `n` bytes of `x[rs2]` at `ea`; `pc + 4`; `cnt.store + 1`. Unmapped bytes:
`MemoryViolation`, nothing written (R33, R37). -/
def storeOp (n : Nat) (rs2 rs1 : Reg) (imm : BitVec 12) (s : State) : StepResult :=
  match memWrite s (s.effAddr rs1 imm) n (s.readReg rs2) with
  | some t => .next (t.retire .store s.pc.next)
  | none => .fault (.memoryViolation .store (s.effAddr rs1 imm))

/-- SB (R126). -/
def execSb (rs2 rs1 : Reg) (imm : BitVec 12) (s : State) : StepResult := storeOp 1 rs2 rs1 imm s

/-- SH (R127). -/
def execSh (rs2 rs1 : Reg) (imm : BitVec 12) (s : State) : StepResult := storeOp 2 rs2 rs1 imm s

/-- SW (R128). -/
def execSw (rs2 rs1 : Reg) (imm : BitVec 12) (s : State) : StepResult := storeOp 4 rs2 rs1 imm s

/-- SD (R129). -/
def execSd (rs2 rs1 : Reg) (imm : BitVec 12) (s : State) : StepResult := storeOp 8 rs2 rs1 imm s

end Sys2Proof.Machine
end

