-- ==== Sys2Proof/Machine/Step.lean ====
section
/-! DEFINITION. One step of the engine (spec/50_fetch_dispatch.md R160), and the placing of an instruction where the next step
fetches it. -/

namespace Sys2Proof.Machine

/-- Dispatch and execute the fetched word (R164, R165): raise, or the instruction's meaning. -/
def dispatchWord (iw : InstrWord) (s : State) : Host.Outcome State Fault Refusal :=
  match decodeWord iw with
  | .error r => .next (raiseUnsupported r s)
  | .ok i => exec i s

/-- One step (R160): in STOPPED and FAULTED the state stays as it is (log 7); else the sentinel test, the fetch,
`cnt.total + 1`, the dispatch. -/
def step (s : State) : Host.Outcome State Fault Refusal :=
  if s.terminal then .next s
  else if s.atSentinel then .next s.stop
  else
    match fetch s with
    | none => .fault (.memoryViolation .fetch s.pc)
    | some iw => dispatchWord iw (s.afterFetch iw)

/-- The state with the word that `nbits` and `w` say stored where the next step fetches, so that the very next step runs it
(log 6): the load of a program from outside the machine (R206). -/
def State.withFetchWord (s : State) (nbits w : Nat) : State :=
  s.makeFetchable.putWordAtPc (tableWord nbits w)

end Sys2Proof.Machine
end

