-- ==== Sys2Proof/Safety.lean ====
section
/-! DEFINITION. The terms claims are stated in: the invariants of the state, what software owes the engine, and which runs
are safe. -/

namespace Sys2Proof.Machine

/-- What every step keeps of the representation: memory is in its canonical form (log 5), there is a fault record exactly
when the run is FAULTED (R17), and the unused storage of register 0 is 0 (R11). -/
abbrev State.Inv (s : State) : Prop :=
  Memory.wf s.mem = true ∧ (s.fault.isSome = true ↔ s.run = .faulted) ∧ s.regs[0] = 0

/-- The sum of the six category counters (R18). -/
def Counters.categories (c : Counters) : Word :=
  c.arith + c.load + c.store + c.jump + c.brTaken + c.brNotTaken

/-- The balance of R18: `cnt.total` is the sum of the category counters, and one more in FAULTED; modulo 2^64. -/
abbrev State.CountersBalance (s : State) : Prop :=
  s.cnt.total = s.cnt.categories + (if s.run = .faulted then 1 else 0)

/-- The pc obligation of software (R210): a multiple of 4. -/
abbrev State.PcAligned (s : State) : Prop := s.pc.toNat % 4 = 0

/-- The side condition of D4 on the stack region. -/
abbrev Platform.StackFits (p : Platform) : Prop := p.stackBase.toNat + p.stackSize ≤ 2 ^ 64

/-- The states the first `k` steps from `s` lead to: the run of R169. -/
def runFor (k : Nat) (s : State) : StepResult := Host.Core.run Sys2Proof.core k s

/-- The run completes within `k` steps with this result: it reaches STOPPED (R168, R169). -/
def CompletesWith (k : Nat) (s : State) (result : Word) : Prop :=
  ∃ t, runFor k s = .next t ∧ t.result = some result

/-- A safe run of `k` steps: no `MemoryViolation` (R37) and no `UnsupportedInstruction` (R180). -/
def SafeFor (k : Nat) (s : State) : Prop :=
  ∃ t, runFor k s = .next t ∧ t.run ≠ .faulted

end Sys2Proof.Machine
end

