-- ==== Sys2Proof/Certificates/Slice0/Obligations.lean ====
section
/-! DEFINITION. The statements about the model, from the numbered rules of spec/. Their vocabulary comes first: fields of a
word as arithmetic, two's complement as integers, and the frames, none of it taken from the decoder or the meanings. -/

namespace Sys2Proof.Says

open Sys2Proof.Machine

/-! ## Numbers (R6, R7, R8) -/

/-- `iw[lo + n - 1 : lo]` as a number: `(iw >> lo) mod 2^n` (R6, R7). -/
def field (iw : InstrWord) (lo n : Nat) : Nat := iw.toNat / 2 ^ lo % 2 ^ n

/-- A register number from its five bits. -/
def regField (iw : InstrWord) (lo : Nat) : Reg := BitVec.ofNat 5 (field iw lo 5)

/-- The `w` low bits of `v` read as a two's-complement integer, for `w` of 1 or more (R6, R8). -/
def signed (w v : Nat) : Int :=
  if v % 2 ^ w < 2 ^ (w - 1) then (v % 2 ^ w : Nat) else (v % 2 ^ w : Nat) - (2 ^ w : Nat)

/-- `u64(v)` (R6). -/
def u64 (v : Word) : Nat := v.toNat

/-- `s64(v)` (R6). -/
def s64 (v : Word) : Int := signed 64 v.toNat

/-- The 64-bit value is this integer modulo 2^64 (R6, D22). -/
def IsMod (v : Word) (z : Int) : Prop := (v.toNat : Int) = z % (2 ^ 64 : Nat)

/-- `iw[31:25] ++ iw[11:7]` (R57). -/
def storeField (iw : InstrWord) : Nat := field iw 25 7 * 2 ^ 5 + field iw 7 5

/-- `iw[31] ++ iw[7] ++ iw[30:25] ++ iw[11:8] ++ 0b0` (R58). -/
def branchField (iw : InstrWord) : Nat :=
  field iw 31 1 * 2 ^ 12 + field iw 7 1 * 2 ^ 11 + field iw 25 6 * 2 ^ 5 + field iw 8 4 * 2

/-- `iw[31] ++ iw[19:12] ++ iw[20] ++ iw[30:21] ++ 0b0` (R59). -/
def jumpField (iw : InstrWord) : Nat :=
  field iw 31 1 * 2 ^ 20 + field iw 12 8 * 2 ^ 12 + field iw 20 1 * 2 ^ 11 + field iw 21 10 * 2

/-! ## Memory (R30, R32) -/

/-- The byte address `(a + i) mod 2^64`. -/
def at_ (a : Word) (i : Nat) : Word := a + BitVec.ofNat 64 i

/-- Every one of the `n` bytes from `a` is mapped. -/
def AllMapped (p : Platform) (a : Word) (n : Nat) : Prop := ∀ i, i < n → mapped p (at_ a i) = true

/-- The sum of R32 over the `n` bytes from `a`. -/
def bytesValue (s : State) (a : Word) (n : Nat) : Nat :=
  ((List.range n).map fun i => (s.byteAt (at_ a i)).toNat * 2 ^ (8 * i)).sum

/-! ## Frames -/

/-- Every byte of memory reads as before. -/
def SameMemory (s t : State) : Prop := ∀ a : Word, t.byteAt a = s.byteAt a

/-- Every register reads as before. -/
def SameRegs (s t : State) : Prop := ∀ r : Reg, t.readReg r = s.readReg r

/-- Run state, fault record, `cache_en`, the cache and the platform are as before. -/
def SameRest (s t : State) : Prop :=
  t.run = s.run ∧ t.fault = s.fault ∧ t.cacheEn = s.cacheEn ∧ t.icache = s.icache ∧ t.plat = s.plat

/-- `x[rd]` holds a value that `result` allows and no other register changes; for `rd = 0` the write is discarded
(R11). -/
def OnlyRegWritten (rd : Reg) (result : Word → Prop) (s t : State) : Prop :=
  (rd ≠ 0 → result (t.readReg rd)) ∧ (∀ r : Reg, r ≠ rd → t.readReg r = s.readReg r) ∧ t.readReg 0 = 0

/-- The common effect of R80 and R100. -/
def ArithEffect (rd : Reg) (result : Word → Prop) (s t : State) : Prop :=
  OnlyRegWritten rd result s t ∧ IsMod t.pc (s.pc.toNat + 4) ∧
    t.cnt = { s.cnt with arith := s.cnt.arith + 1 } ∧ SameMemory s t ∧ SameRest s t

/-! ## The shape of one instruction's rule: its words, and its effect -/

/-- An R-type instruction (R62, R64, R80). -/
def RRule (funct3 bit30 bit25 : Nat) (mk : Reg → Reg → Reg → Instr) (result : Word → Word → Word → Prop) : Prop :=
  (∀ iw : InstrWord, field iw 0 7 = 0x33 → field iw 12 3 = funct3 → field iw 30 1 = bit30 → field iw 25 1 = bit25 →
    decodeWord iw = .ok (mk (regField iw 7) (regField iw 15) (regField iw 20))) ∧
  ∀ (rd rs1 rs2 : Reg) (s : State), ∃ t, exec (mk rd rs1 rs2) s = .next t ∧
    ArithEffect rd (result (s.readReg rs1) (s.readReg rs2)) s t

/-- A shift by an immediate amount (R61, R62, R65, R100). -/
def ShiftRule (funct3 shamtHi : Nat) (mk : Reg → Reg → BitVec 6 → Instr) (result : Word → Nat → Word → Prop) : Prop :=
  (∀ iw : InstrWord, field iw 0 7 = 0x13 → field iw 12 3 = funct3 → field iw 26 6 = shamtHi →
    decodeWord iw = .ok (mk (regField iw 7) (regField iw 15) (BitVec.ofNat 6 (field iw 20 6)))) ∧
  ∀ (rd rs1 : Reg) (shamt : BitVec 6) (s : State), ∃ t, exec (mk rd rs1 shamt) s = .next t ∧
    ArithEffect rd (result (s.readReg rs1) shamt.toNat) s t

/-- A load of `n` bytes, sign-extended (R62, R66, R110). -/
def LoadRule (funct3 n : Nat) (mk : Reg → Reg → BitVec 12 → Instr) : Prop :=
  (∀ iw : InstrWord, field iw 0 7 = 0x03 → field iw 12 3 = funct3 →
    decodeWord iw = .ok (mk (regField iw 7) (regField iw 15) (BitVec.ofNat 12 (field iw 20 12)))) ∧
  ∀ (rd rs1 : Reg) (imm : BitVec 12) (s : State),
    IsMod (s.effAddr rs1 imm) (u64 (s.readReg rs1) + signed 12 imm.toNat) ∧
    (AllMapped s.plat (s.effAddr rs1 imm) n → ∃ t, exec (mk rd rs1 imm) s = .next t ∧
      OnlyRegWritten rd (fun v => IsMod v (signed (8 * n) (bytesValue s (s.effAddr rs1 imm) n))) s t ∧
      IsMod t.pc (s.pc.toNat + 4) ∧ t.cnt = { s.cnt with load := s.cnt.load + 1 } ∧ SameMemory s t ∧ SameRest s t)

/-- A store of `n` bytes (R62, R66, R125). The address is the meaning's own, `State.effAddr`, said as a number too. The
premise on memory is the invariant `StepKeepsTheInvariant` states. -/
def StoreRule (funct3 n : Nat) (mk : Reg → Reg → BitVec 12 → Instr) : Prop :=
  (∀ iw : InstrWord, field iw 0 7 = 0x23 → field iw 12 3 = funct3 →
    decodeWord iw = .ok (mk (regField iw 20) (regField iw 15) (BitVec.ofNat 12 (storeField iw)))) ∧
  ∀ (rs2 rs1 : Reg) (imm : BitVec 12) (s : State),
    IsMod (s.effAddr rs1 imm) (u64 (s.readReg rs1) + signed 12 imm.toNat) ∧
    (Memory.wf s.mem = true → AllMapped s.plat (s.effAddr rs1 imm) n → ∃ t, exec (mk rs2 rs1 imm) s = .next t ∧
      (∀ i, i < n → (t.byteAt (at_ (s.effAddr rs1 imm) i)).toNat = u64 (s.readReg rs2) / 2 ^ (8 * i) % 2 ^ 8) ∧
      (∀ a : Word, (∀ i, i < n → a ≠ at_ (s.effAddr rs1 imm) i) → t.byteAt a = s.byteAt a) ∧
      SameRegs s t ∧ IsMod t.pc (s.pc.toNat + 4) ∧ t.cnt = { s.cnt with store := s.cnt.store + 1 } ∧ SameRest s t)

/-- A conditional branch (R62, R66, R135). -/
def BranchRule (funct3 : Nat) (mk : Reg → Reg → BitVec 13 → Instr) (cond : Word → Word → Prop) : Prop :=
  (∀ iw : InstrWord, field iw 0 7 = 0x63 → field iw 12 3 = funct3 →
    decodeWord iw = .ok (mk (regField iw 15) (regField iw 20) (BitVec.ofNat 13 (branchField iw)))) ∧
  ∀ (rs1 rs2 : Reg) (imm : BitVec 13) (s : State), ∃ t, exec (mk rs1 rs2 imm) s = .next t ∧
    (cond (s.readReg rs1) (s.readReg rs2) →
      IsMod t.pc (s.pc.toNat + signed 13 imm.toNat) ∧ t.cnt = { s.cnt with brTaken := s.cnt.brTaken + 1 }) ∧
    (¬cond (s.readReg rs1) (s.readReg rs2) →
      IsMod t.pc (s.pc.toNat + 4) ∧ t.cnt = { s.cnt with brNotTaken := s.cnt.brNotTaken + 1 }) ∧
    SameRegs s t ∧ SameMemory s t ∧ SameRest s t

/-! ## The table of R181 -/

/-- The pairs `(iw[30], iw[25])` R64 gives an instruction for a funct3. -/
def SupportedPair (funct3 bit30 bit25 : Nat) : Prop :=
  (funct3 = 0 ∧ (bit30 = 0 ∨ bit25 = 0)) ∨ (funct3 = 1 ∧ bit30 = 0 ∧ bit25 = 0) ∨
    (funct3 = 5 ∧ (bit30 = 0 ∨ bit25 = 0)) ∨ (funct3 = 7 ∧ bit30 = 0)

/-- The word raises `UnsupportedInstruction(kind, value)`: one disjunct per row of R181. -/
def Raises (iw : InstrWord) (kind : FaultKind) (value : Nat) : Prop :=
  (field iw 0 7 ∉ [0x33, 0x13, 0x03, 0x67, 0x23, 0x63, 0x6F] ∧ kind = .opcode ∧ value = field iw 0 7) ∨
  (field iw 0 7 = 0x33 ∧ field iw 12 3 ∈ [2, 3, 4, 6] ∧ kind = .funct3 ∧ value = field iw 12 3) ∨
  (field iw 0 7 = 0x33 ∧ field iw 12 3 ∈ [0, 1, 5, 7] ∧
    ¬SupportedPair (field iw 12 3) (field iw 30 1) (field iw 25 1) ∧ kind = .funct7 ∧ value = field iw 25 7) ∨
  (field iw 0 7 = 0x13 ∧ field iw 12 3 ∈ [2, 3, 4, 6, 7] ∧ kind = .funct3 ∧ value = field iw 12 3) ∨
  (field iw 0 7 = 0x13 ∧ field iw 12 3 = 1 ∧ field iw 26 6 ≠ 0 ∧ kind = .shamtHi ∧ value = field iw 26 6) ∨
  (field iw 0 7 = 0x13 ∧ field iw 12 3 = 5 ∧ field iw 26 6 ∉ [0b000000, 0b010000] ∧ kind = .shamtHi ∧
    value = field iw 26 6) ∨
  (field iw 0 7 = 0x03 ∧ field iw 12 3 ∈ [4, 5, 6, 7] ∧ kind = .funct3 ∧ value = field iw 12 3) ∨
  (field iw 0 7 = 0x23 ∧ field iw 12 3 ∈ [4, 5, 6, 7] ∧ kind = .funct3 ∧ value = field iw 12 3) ∨
  (field iw 0 7 = 0x63 ∧ field iw 12 3 ∈ [2, 3] ∧ kind = .funct3 ∧ value = field iw 12 3)

/-! ## Tables over all instructions -/

/-- The next pc before it wraps: the table of R14. -/
def nextPc (i : Instr) (s : State) : Int :=
  match i with
  | .beq rs1 rs2 imm => if s.readReg rs1 = s.readReg rs2 then s.pc.toNat + signed 13 imm.toNat else s.pc.toNat + 4
  | .bne rs1 rs2 imm => if s.readReg rs1 ≠ s.readReg rs2 then s.pc.toNat + signed 13 imm.toNat else s.pc.toNat + 4
  | .blt rs1 rs2 imm =>
    if s64 (s.readReg rs1) < s64 (s.readReg rs2) then s.pc.toNat + signed 13 imm.toNat else s.pc.toNat + 4
  | .bge rs1 rs2 imm =>
    if s64 (s.readReg rs1) ≥ s64 (s.readReg rs2) then s.pc.toNat + signed 13 imm.toNat else s.pc.toNat + 4
  | .bltu rs1 rs2 imm =>
    if u64 (s.readReg rs1) < u64 (s.readReg rs2) then s.pc.toNat + signed 13 imm.toNat else s.pc.toNat + 4
  | .bgeu rs1 rs2 imm =>
    if u64 (s.readReg rs1) ≥ u64 (s.readReg rs2) then s.pc.toNat + signed 13 imm.toNat else s.pc.toNat + 4
  | .jal _ imm => s.pc.toNat + signed 21 imm.toNat
  | .jalr _ rs1 imm => u64 (s.readReg rs1) + signed 12 imm.toNat
  | _ => s.pc.toNat + 4

/-- The offset of a branch or a JAL as a number; 0 for every other instruction. -/
def pcOffset (i : Instr) : Nat :=
  match i with
  | .beq _ _ imm | .bne _ _ imm | .blt _ _ imm | .bge _ _ imm | .bltu _ _ imm | .bgeu _ _ imm => imm.toNat
  | .jal _ imm => imm.toNat
  | _ => 0

/-- The register an instruction may write (R11): `rd` of the R-type, I-arithmetic, load and JAL instructions. -/
def destination (i : Instr) : Option Reg :=
  match i with
  | .add rd _ _ | .sub rd _ _ | .mul rd _ _ | .sll rd _ _ | .srl rd _ _ | .sra rd _ _ | .divu rd _ _ | .and rd _ _
  | .remu rd _ _ => some rd
  | .addi rd _ _ => some rd
  | .slli rd _ _ | .srli rd _ _ | .srai rd _ _ => some rd
  | .lb rd _ _ | .lh rd _ _ | .lw rd _ _ | .ld rd _ _ => some rd
  | .jal rd _ => some rd
  | _ => none

/-- The data access of an instruction: its kind, its address, its bytes (R38, R110, R125). -/
def dataAccess (i : Instr) (s : State) : Option (AccessKind × Word × Nat) :=
  match i with
  | .lb _ rs1 imm => some (.load, s.effAddr rs1 imm, 1)
  | .lh _ rs1 imm => some (.load, s.effAddr rs1 imm, 2)
  | .lw _ rs1 imm => some (.load, s.effAddr rs1 imm, 4)
  | .ld _ rs1 imm => some (.load, s.effAddr rs1 imm, 8)
  | .sb _ rs1 imm => some (.store, s.effAddr rs1 imm, 1)
  | .sh _ rs1 imm => some (.store, s.effAddr rs1 imm, 2)
  | .sw _ rs1 imm => some (.store, s.effAddr rs1 imm, 4)
  | .sd _ rs1 imm => some (.store, s.effAddr rs1 imm, 8)
  | _ => none

/-- The category counter an instruction increments (R166). -/
def categoryOf (i : Instr) (s : State) : Category :=
  match i with
  | .lb _ _ _ | .lh _ _ _ | .lw _ _ _ | .ld _ _ _ => .load
  | .sb _ _ _ | .sh _ _ _ | .sw _ _ _ | .sd _ _ _ => .store
  | .jal _ _ => .jump
  | .jalr _ _ _ => .jump
  | .beq rs1 rs2 _ => if s.readReg rs1 = s.readReg rs2 then .brTaken else .brNotTaken
  | .bne rs1 rs2 _ => if s.readReg rs1 ≠ s.readReg rs2 then .brTaken else .brNotTaken
  | .blt rs1 rs2 _ => if s64 (s.readReg rs1) < s64 (s.readReg rs2) then .brTaken else .brNotTaken
  | .bge rs1 rs2 _ => if s64 (s.readReg rs1) ≥ s64 (s.readReg rs2) then .brTaken else .brNotTaken
  | .bltu rs1 rs2 _ => if u64 (s.readReg rs1) < u64 (s.readReg rs2) then .brTaken else .brNotTaken
  | .bgeu rs1 rs2 _ => if u64 (s.readReg rs1) ≥ u64 (s.readReg rs2) then .brTaken else .brNotTaken
  | _ => .arith

/-- The counters after one more of this category: exactly that one is one more. -/
def oneMore (c : Counters) (k : Category) : Counters :=
  { total := c.total
    arith := if k = .arith then c.arith + 1 else c.arith
    load := if k = .load then c.load + 1 else c.load
    store := if k = .store then c.store + 1 else c.store
    jump := if k = .jump then c.jump + 1 else c.jump
    brTaken := if k = .brTaken then c.brTaken + 1 else c.brTaken
    brNotTaken := if k = .brNotTaken then c.brNotTaken + 1 else c.brNotTaken }

/-! ## Outcomes with a part of the state left out -/

/-- The outcome without `cache_en` and the cache. -/
def withoutCache (o : StepResult) : StepResult :=
  match o with
  | .next t => .next { t with cacheEn := false, icache := ICache.empty }
  | .fault f => .fault f
  | .refused r => .refused r

/-- The outcome without the counters. -/
def withoutCounters (o : StepResult) : StepResult :=
  match o with
  | .next t => .next { t with cnt := Counters.zero }
  | .fault f => .fault f
  | .refused r => .refused r

/-- The engine fetches in this state: RUNNING, and the pc is not `SENTINEL` (R160, R161). -/
def TakesStep (s : State) : Prop := s.run = .running ∧ s.pc ≠ s.plat.sentinel

end Sys2Proof.Says

open Sys2Proof Sys2Proof.Machine Sys2Proof.Says

/-! ## Encoding -/

/-- The round trip of 30_encoding.md section 6, over all 29 instructions and all operands. -/
def Obligations.DecodingAnEncodedInstructionGivesItBack : Prop :=
  ∀ i : Instr, i.wf = true → ∀ rest : List Byte, decode (encodeBytes i ++ rest) = .ok (i, rest)

/-- The other direction of the round trip; the unexamined bits are those of decisions D10 and D28. Writing them as zeros is the model's choice (log 13). -/
def Obligations.EncodingADecodedWordGivesItsExaminedBits : Prop :=
  ∀ (iw : InstrWord) (i : Instr), decodeWord iw = .ok i →
    i.wf = true ∧
    encode i =
      if field iw 0 7 = 0x33 then iw &&& 0x43FFFFFF
      else if field iw 0 7 = 0x67 then iw &&& 0xFFFF8FFF
      else iw

/-- Words the spec writes out beside their instructions. -/
def Obligations.SpecWordsDecodeToTheirInstructions : Prop :=
  decodeWord 0x002081B3 = .ok (.add 3 1 2) ∧
    decodeWord 0x00500093 = .ok (.addi 1 0 5) ∧
    decodeWord 0x4040D193 = .ok (.srai 3 1 4) ∧
    decodeWord 0x00813283 = .ok (.ld 5 2 8) ∧
    decodeWord 0xFFC28067 = .ok (.jalr 0 5 (-4)) ∧
    decodeWord 0xFE512E23 = .ok (.sw 5 2 (-4)) ∧
    decodeWord 0xFE62CCE3 = .ok (.blt 5 6 (-8)) ∧
    decodeWord 0xFF1FF06F = .ok (.jal 0 (-16))

/-- R56 to R60, with the property of the document's section 8. -/
def Obligations.ImmediatesAreTheSignExtendedFields : Prop :=
  ∀ iw : InstrWord,
    (s64 (imm12 (immIOf iw)) = signed 12 (field iw 20 12) ∧
      -2048 ≤ s64 (imm12 (immIOf iw)) ∧ s64 (imm12 (immIOf iw)) ≤ 2047) ∧
    (s64 (imm12 (immSOf iw)) = signed 12 (storeField iw) ∧
      -2048 ≤ s64 (imm12 (immSOf iw)) ∧ s64 (imm12 (immSOf iw)) ≤ 2047) ∧
    (s64 (imm13 (immBOf iw)) = signed 13 (branchField iw) ∧ s64 (imm13 (immBOf iw)) % 2 = 0 ∧
      s64 (imm13 (immBOf iw)) = 2 * signed 12 (branchField iw / 2) ∧
      -4096 ≤ s64 (imm13 (immBOf iw)) ∧ s64 (imm13 (immBOf iw)) ≤ 4094) ∧
    (s64 (imm21 (immJOf iw)) = signed 21 (jumpField iw) ∧ s64 (imm21 (immJOf iw)) % 2 = 0 ∧
      s64 (imm21 (immJOf iw)) = 2 * signed 20 (jumpField iw / 2) ∧
      -1048576 ≤ s64 (imm21 (immJOf iw)) ∧ s64 (imm21 (immJOf iw)) ≤ 1048574)

/-- The document's two laws and the definition of 00_scope.md section 5. That bits of v at and above w are ignored is the spec's decision D36. -/
def Obligations.SignExtensionLaws : Prop :=
  ∀ (w : Nat) (v : Word), 1 ≤ w → w ≤ 64 →
    s64 (sext w v) = signed w v.toNat ∧ sext w (sext w v) = sext w v ∧ (v.toNat < 2 ^ (w - 1) → sext w v = v)

/-- R181, whole. -/
def Obligations.WordsOutsideTheTableRaiseTheirCause : Prop :=
  (∀ (iw : InstrWord) (r : Unsupported), decodeWord iw = .error r ↔ Raises iw r.kind r.value) ∧
    (∀ (iw : InstrWord) (k k' : FaultKind) (v v' : Nat), Raises iw k v → Raises iw k' v' → k = k' ∧ v = v') ∧
    (∀ (iw : InstrWord) (k : FaultKind) (v : Nat), field iw 0 7 = 0x67 ∨ field iw 0 7 = 0x6F → ¬Raises iw k v)

/-! ## R-type instructions -/

/-- R81, with the common effect of R80. -/
def Obligations.AddWritesTheSumModulo64Bits : Prop :=
  RRule 0 0 0 .add fun x y v => u64 v = (u64 x + u64 y) % 2 ^ 64

/-- R82, with the common effect of R80. -/
def Obligations.SubWritesTheDifferenceModulo64Bits : Prop :=
  RRule 0 1 0 .sub fun x y v => IsMod v ((u64 x : Int) - u64 y)

/-- MUL; that the low half of the product is kept is the spec's decision D19. -/
def Obligations.MulWritesTheLow64BitsOfTheProduct : Prop :=
  RRule 0 0 1 .mul fun x y v => u64 v = u64 x * u64 y % 2 ^ 64

/-- SLL; the 6-bit amount is the spec's decision D12. -/
def Obligations.SllShiftsByTheLowSixBits : Prop :=
  RRule 1 0 0 .sll fun x y v => u64 v = u64 x * 2 ^ (u64 y % 64) % 2 ^ 64

/-- SRL; the 6-bit amount is the spec's decision D12. -/
def Obligations.SrlShiftsInZeros : Prop :=
  RRule 5 0 0 .srl fun x y v => u64 v = u64 x / 2 ^ (u64 y % 64)

/-- SRA; Int division by a positive number rounds down; the 6-bit amount is the spec's decision D12. -/
def Obligations.SraShiftsInTheSign : Prop :=
  RRule 5 1 0 .sra fun x y v => IsMod v (s64 x / (2 ^ (u64 y % 64) : Nat))

/-- DIVU; its function code is the spec's decision D9, its result for a zero divisor D18. -/
def Obligations.DivuDividesUnsignedAndByZeroGivesAllOnes : Prop :=
  RRule 5 0 1 .divu fun x y v => u64 v = if y = 0 then 2 ^ 64 - 1 else u64 x / u64 y

/-- R88, with the common effect of R80. -/
def Obligations.AndIsBitwise : Prop :=
  RRule 7 0 0 .and fun x y v => ∀ i, i < 64 → v.getLsbD i = (x.getLsbD i && y.getLsbD i)

/-- REMU; its function code is the spec's decision D9, its result for a zero divisor D18. -/
def Obligations.RemuGivesTheUnsignedRemainderAndByZeroTheDividend : Prop :=
  RRule 7 0 1 .remu fun x y v => u64 v = if y = 0 then u64 x else u64 x % u64 y

/-- The identity under REMU in 40_r_type.md. -/
def Obligations.QuotientAndRemainderRebuildTheDividend : Prop :=
  ∀ (rd rd' rs1 rs2 : Reg) (s t u : State), rd ≠ 0 → rd' ≠ 0 → s.readReg rs2 ≠ 0 →
    exec (.divu rd rs1 rs2) s = .next t → exec (.remu rd' rs1 rs2) s = .next u →
    u64 (s.readReg rs1) = u64 (t.readReg rd) * u64 (s.readReg rs2) + u64 (u.readReg rd') ∧
      u64 (u.readReg rd') < u64 (s.readReg rs2)

/-! ## I-arithmetic instructions -/

/-- R101, with the common effect of R100; rs1 = 0 is the "li" form. -/
def Obligations.AddiAddsTheSignExtendedImmediate : Prop :=
  (∀ iw : InstrWord, field iw 0 7 = 0x13 → field iw 12 3 = 0 →
      decodeWord iw = .ok (.addi (regField iw 7) (regField iw 15) (BitVec.ofNat 12 (field iw 20 12)))) ∧
    ∀ (rd rs1 : Reg) (imm : BitVec 12) (s : State), ∃ t, exec (.addi rd rs1 imm) s = .next t ∧
      ArithEffect rd (fun v => IsMod v (u64 (s.readReg rs1) + signed 12 imm.toNat)) s t

/-- SLLI; the 6-bit amount is the spec's decision D13, the high bits D15. -/
def Obligations.SlliShiftsLeftByItsAmount : Prop :=
  ShiftRule 1 0 .slli fun x sh v => u64 v = u64 x * 2 ^ sh % 2 ^ 64

/-- SRLI; the 6-bit amount is the spec's decision D13, the high bits D14. -/
def Obligations.SrliShiftsRightWithZeros : Prop :=
  ShiftRule 5 0 .srli fun x sh v => u64 v = u64 x / 2 ^ sh

/-- SRAI; the 6-bit amount is the spec's decision D13, the high bits D14. -/
def Obligations.SraiShiftsRightWithTheSign : Prop :=
  ShiftRule 5 16 .srai fun x sh v => IsMod v (s64 x / (2 ^ sh : Nat))

/-! ## Loads -/

/-- R111, with the common effect of R110. -/
def Obligations.LbLoadsOneByteSignExtended : Prop :=
  LoadRule 0 1 .lb

/-- LH; the sign extension is the spec's decision D17. -/
def Obligations.LhLoadsTwoBytesSignExtended : Prop :=
  LoadRule 1 2 .lh

/-- LW; the sign extension is the spec's decision D17. -/
def Obligations.LwLoadsFourBytesSignExtended : Prop :=
  LoadRule 2 4 .lw

/-- R114, with the common effect of R110. -/
def Obligations.LdLoadsEightBytes : Prop :=
  LoadRule 3 8 .ld

/-! ## Stores -/

/-- R126, with the common effect of R125. -/
def Obligations.SbStoresTheLowByte : Prop :=
  StoreRule 0 1 .sb

/-- R127, with the common effect of R125. -/
def Obligations.ShStoresTheLowTwoBytes : Prop :=
  StoreRule 1 2 .sh

/-- R128, with the common effect of R125. -/
def Obligations.SwStoresTheLowFourBytes : Prop :=
  StoreRule 2 4 .sw

/-- R129, with the common effect of R125. -/
def Obligations.SdStoresEightBytes : Prop :=
  StoreRule 3 8 .sd

/-! ## Branches -/

/-- R136, with the common effect of R135. -/
def Obligations.BeqBranchesOnEqual : Prop :=
  BranchRule 0 .beq fun x y => ∀ i, i < 64 → x.getLsbD i = y.getLsbD i

/-- R137, with the common effect of R135. -/
def Obligations.BneBranchesOnNotEqual : Prop :=
  BranchRule 1 .bne fun x y => x ≠ y

/-- R138, with the common effect of R135. -/
def Obligations.BltBranchesOnSignedLess : Prop :=
  BranchRule 4 .blt fun x y => s64 x < s64 y

/-- R139, with the common effect of R135. -/
def Obligations.BgeBranchesOnSignedGreaterOrEqual : Prop :=
  BranchRule 5 .bge fun x y => s64 x ≥ s64 y

/-- R140, with the common effect of R135. -/
def Obligations.BltuBranchesOnUnsignedLess : Prop :=
  BranchRule 6 .bltu fun x y => u64 x < u64 y

/-- R141, with the common effect of R135. -/
def Obligations.BgeuBranchesOnUnsignedGreaterOrEqual : Prop :=
  BranchRule 7 .bgeu fun x y => u64 x ≥ u64 y

/-! ## Jumps -/

/-- JALR; that bit 0 is kept and funct3 not examined is the spec's decision D28. -/
def Obligations.JalrJumpsWithoutLinking : Prop :=
  (∀ iw : InstrWord, field iw 0 7 = 0x67 →
      decodeWord iw = .ok (.jalr (regField iw 7) (regField iw 15) (BitVec.ofNat 12 (field iw 20 12)))) ∧
    ∀ (rd rs1 : Reg) (imm : BitVec 12) (s : State), ∃ t, exec (.jalr rd rs1 imm) s = .next t ∧
      IsMod t.pc (u64 (s.readReg rs1) + signed 12 imm.toNat) ∧ SameRegs s t ∧
      t.cnt = { s.cnt with jump := s.cnt.jump + 1 } ∧ SameMemory s t ∧ SameRest s t

/-- R150. -/
def Obligations.JalLinksAndJumps : Prop :=
  (∀ iw : InstrWord, field iw 0 7 = 0x6F →
      decodeWord iw = .ok (.jal (regField iw 7) (BitVec.ofNat 21 (jumpField iw)))) ∧
    ∀ (rd : Reg) (imm : BitVec 21) (s : State), ∃ t, exec (.jal rd imm) s = .next t ∧
      OnlyRegWritten rd (fun v => IsMod v (s.pc.toNat + 4)) s t ∧ IsMod t.pc (s.pc.toNat + signed 21 imm.toNat) ∧
      t.cnt = { s.cnt with jump := s.cnt.jump + 1 } ∧ SameMemory s t ∧ SameRest s t

/-! ## Memory -/

/-- R32 where all bytes are mapped. That memRead answers none, for MemoryViolation, where some byte is not mapped is the model's choice (log 8), by the spec's decision D6; the byte order of the sum is the spec's decision D1. -/
def Obligations.MemReadIsTheLittleEndianSum : Prop :=
  ∀ (s : State) (a : Word) (n : Nat), n ∈ [1, 2, 4, 8] →
    (AllMapped s.plat a n → ∃ v, memRead s a n = some v ∧ u64 v = bytesValue s a n) ∧
    (¬AllMapped s.plat a n → memRead s a n = none)

/-- R33 where all bytes are mapped. That memWrite answers none, for MemoryViolation, where some byte is not mapped is the model's choice (log 8), by the spec's decision D6; the byte order is the spec's decision D1. The premise on memory is the invariant StepKeepsTheInvariant states. -/
def Obligations.MemWriteStoresItsBytesAndNoOther : Prop :=
  ∀ (s : State) (a v : Word) (n : Nat), n ∈ [1, 2, 4, 8] → Memory.wf s.mem = true →
    (AllMapped s.plat a n → ∃ t, memWrite s a n v = some t ∧
      (∀ i, i < n → (t.byteAt (at_ a i)).toNat = u64 v / 2 ^ (8 * i) % 2 ^ 8) ∧
      (∀ b : Word, (∀ i, i < n → b ≠ at_ a i) → t.byteAt b = s.byteAt b) ∧
      SameRegs s t ∧ t.pc = s.pc ∧ t.cnt = s.cnt ∧ SameRest s t) ∧
    (¬AllMapped s.plat a n → memWrite s a n v = none)

/-- Mixed-width accesses of 20_memory.md section 2; the byte order is the spec's decision D1. -/
def Obligations.ReadingInsideAStoreGivesItsBytes : Prop :=
  ∀ (s t : State) (a v : Word) (n k m : Nat), n ≤ 8 → k + m ≤ n → Memory.wf s.mem = true → memWrite s a n v = some t →
    ∃ u, memRead t (at_ a k) m = some u ∧ u64 u = u64 v / 2 ^ (8 * k) % 2 ^ (8 * m)

/-- Instruction-fetch coherence, 20_memory.md section 7 (the spec derives it; D30). -/
def Obligations.AStoreIsSeenByTheNextFetch : Prop :=
  ∀ (rs2 rs1 : Reg) (imm : BitVec 12) (s t : State), Memory.wf s.mem = true →
    exec (.sw rs2 rs1 imm) s = .next t → t.pc = s.effAddr rs1 imm →
    ∃ iw, fetch t = some iw ∧ iw.toNat = u64 (s.readReg rs2) % 2 ^ 32

/-- The model's own representation (log 5): equal memories are equal data. -/
def Obligations.CanonicalMemoriesThatReadAlikeAreEqual : Prop :=
  ∀ m m' : Memory, Memory.wf m = true → Memory.wf m' = true →
    (∀ a : Word, Memory.get m a.toNat = Memory.get m' a.toNat) → m = m'

/-! ## The machine -/

/-- The step of 50_fetch_dispatch.md section 1; atomic by the spec's decision D33. -/
def Obligations.AStepRunsTheInstructionItsBytesDecodeTo : Prop :=
  ∀ (s : State) (i : Instr), TakesStep s → AllMapped s.plat s.pc 4 →
    decode [s.byteAt s.pc, s.byteAt (s.pc + 1), s.byteAt (s.pc + 2), s.byteAt (s.pc + 3)] = .ok (i, []) →
    i.wf = true ∧ ∃ u, step s = exec i u ∧ u.cnt = { s.cnt with total := s.cnt.total + 1 } ∧ u.pc = s.pc ∧
      SameRegs s u ∧ u.mem = s.mem ∧ u.run = s.run ∧ u.fault = s.fault ∧ u.cacheEn = s.cacheEn ∧ u.plat = s.plat ∧
      (s.cacheEn = false → u.icache = s.icache)

/-- 50_fetch_dispatch.md section 1 and 10_state.md section 5; log 7; the spec's decision D34. -/
def Obligations.StoppedAndFaultedTakeNoStep : Prop :=
  ∀ s : State, s.run ≠ .running → step s = .next s

/-- The sentinel test (before the fetch: the spec's decision D23) and the one exception, raised by the word being decoded and by nothing else. -/
def Obligations.TheRunEndsOnlyAtTheSentinelOrAnUnsupportedWord : Prop :=
  ∀ s t : State, s.run = .running → step s = .next t →
    (t.run = .stopped ↔ s.pc = s.plat.sentinel) ∧
    (s.pc = s.plat.sentinel → t = { s with run := .stopped }) ∧
    (t.run = .faulted ↔ s.pc ≠ s.plat.sentinel ∧ ∃ iw r, fetch s = some iw ∧ decodeWord iw = .error r) ∧
    (∀ iw r, s.pc ≠ s.plat.sentinel → fetch s = some iw → decodeWord iw = .error r → t.fault = some r) ∧
    (t.run ≠ .faulted → t.fault = s.fault)

/-- The effect of raise, 60_exceptions.md section 2; the counters are the spec's decision D24. -/
def Obligations.RaisingChangesOnlyTheRunTheRecordAndTheTotal : Prop :=
  ∀ (s : State) (iw : InstrWord) (r : Unsupported), TakesStep s → fetch s = some iw → decodeWord iw = .error r →
    ∃ t, step s = .next t ∧ t.run = .faulted ∧ t.fault = some r ∧ t.cnt = { s.cnt with total := s.cnt.total + 1 } ∧
      SameRegs s t ∧ t.pc = s.pc ∧ SameMemory s t ∧ t.cacheEn = s.cacheEn ∧ t.plat = s.plat

/-- R14. -/
def Obligations.ThePcAdvancesByItsTable : Prop :=
  (∀ (i : Instr) (s t : State), exec i s = .next t → IsMod t.pc (nextPc i s)) ∧
    ∀ (s t : State) (iw : InstrWord) (r : Unsupported), TakesStep s → fetch s = some iw → decodeWord iw = .error r →
      step s = .next t → t.pc = s.pc

/-- The table of 50_fetch_dispatch.md section 2; the categories are the spec's decision D26. -/
def Obligations.EachStepCountsOneWordAndOneCategory : Prop :=
  (∀ (s t : State) (iw : InstrWord) (i : Instr), TakesStep s → fetch s = some iw → decodeWord iw = .ok i →
      step s = .next t → t.cnt = oneMore { s.cnt with total := s.cnt.total + 1 } (categoryOf i s)) ∧
    (∀ (s t : State) (iw : InstrWord) (r : Unsupported), TakesStep s → fetch s = some iw → decodeWord iw = .error r →
      step s = .next t → t.cnt = { s.cnt with total := s.cnt.total + 1 }) ∧
    ∀ s t : State, s.run = .running → s.pc = s.plat.sentinel → step s = .next t → t.cnt = s.cnt

/-- The whole-machine rule in 10_state.md section 2. -/
def Obligations.OnlyTheDestinationRegisterIsWritten : Prop :=
  ∀ (i : Instr) (s t : State), exec i s = .next t →
    (∀ r : Reg, destination i ≠ some r → t.readReg r = s.readReg r) ∧ t.readReg 0 = 0

/-- What is not an exception, 60_exceptions.md section 2; MemoryViolation is the spec's decision D6 and log 8. -/
def Obligations.InstructionsCompleteUnlessAnAccessIsUnmapped : Prop :=
  (∀ (i : Instr) (s : State), (∀ k a n, dataAccess i s = some (k, a, n) → AllMapped s.plat a n) →
      ∃ t, exec i s = .next t ∧ t.run = s.run ∧ t.fault = s.fault) ∧
    (∀ (i : Instr) (s : State) (k : AccessKind) (a : Word) (n : Nat), dataAccess i s = some (k, a, n) →
      ¬AllMapped s.plat a n → exec i s = .fault (.memoryViolation k a)) ∧
    ∀ s : State, TakesStep s → ¬AllMapped s.plat s.pc 4 → step s = .fault (.memoryViolation .fetch s.pc)

/-- R42 for the fetched word; that neither cache_en nor the cache has any effect is R19 with the spec's decision D32. It does not say how a branch is counted: from its condition alone is what the branch statements and EachStepCountsOneWordAndOneCategory say. -/
def Obligations.TheCacheNeverChangesWhatAStepDoes : Prop :=
  ∀ (s : State) (b : Bool) (c : ICache),
    fetch { s with cacheEn := b, icache := c } = (memRead s s.pc 4).map (·.setWidth 32) ∧
    withoutCache (step { s with cacheEn := b, icache := c }) = withoutCache (step s)

/-- R167. -/
def Obligations.CountersNeverInfluenceExecution : Prop :=
  ∀ (s : State) (c : Counters), withoutCounters (step { s with cnt := c }) = withoutCounters (step s)

/-- 10_state.md: register 0, the run state and its record, cache_en; the memory clause is the model's representation (log 5), the platform log 1. -/
def Obligations.StepKeepsTheInvariant : Prop :=
  ∀ s t : State, s.Inv → step s = .next t → t.Inv ∧ t.cacheEn = s.cacheEn ∧ t.plat = s.plat

/-- The balance of 10_state.md section 5, which the spec derives. -/
def Obligations.StepKeepsTheCountersInBalance : Prop :=
  ∀ s t : State, s.CountersBalance → step s = .next t → t.CountersBalance

/-- The table of 70_reset_and_hazards.md section 1; D2, D3, D7, D27 are the spec's decisions; State.reset's inputs and platform are the model's (logs 1 to 5). -/
def Obligations.LaunchSetsTheWholeState : Prop :=
  (∀ (inp : LaunchInputs) (image : Memory) (s t : State), Memory.wf image = true → t = launch inp image s →
      t.pc = inp.entry ∧ t.readReg 1 = s.plat.sentinel ∧ IsMod (t.readReg 2) (s.plat.stackBase.toNat + s.plat.stackSize) ∧
      t.readReg 10 = inp.arg0 ∧ t.readReg 11 = inp.arg1 ∧ t.readReg 12 = inp.arg2 ∧ t.readReg 13 = inp.arg3 ∧
      (∀ r : Reg, r ∉ [1, 2, 10, 11, 12, 13] → t.readReg r = 0) ∧
      t.run = .running ∧ t.fault = none ∧ t.cnt = Counters.zero ∧ t.cacheEn = inp.cacheEn ∧ t.icache = ICache.empty ∧
      (∀ a : Word, t.byteAt a = Memory.get image a.toNat) ∧ t.plat = s.plat ∧ t.Inv ∧ t.CountersBalance) ∧
    State.reset.Inv ∧ State.reset.CountersBalance

/-- The load of 70_reset_and_hazards.md section 2, by the model's log 6. -/
def Obligations.APlacedWordIsTheNextOneRun : Prop :=
  ∀ (s : State) (nbits w : Nat), Memory.wf s.mem = true →
    (∃ u, step (s.withFetchWord nbits w) = dispatchWord (BitVec.ofNat 32 (w % 2 ^ nbits)) u ∧ u.pc = s.pc ∧
      SameRegs s u ∧ u.run = .running) ∧
    (s.run = .running → s.pc ≠ s.plat.sentinel → AllMapped s.plat s.pc 4 →
      s.withFetchWord nbits w = { s with mem := (s.withFetchWord nbits w).mem })

/-- Return and halt, 43_jalr.md, and the result, 50_fetch_dispatch.md section 3. That no result is shown in RUNNING is the model's choice (log 21). -/
def Obligations.ATopLevelReturnStopsTheRun : Prop :=
  (∀ (s : State) (iw : InstrWord) (rd rs1 : Reg) (imm : BitVec 12), TakesStep s → fetch s = some iw →
      decodeWord iw = .ok (.jalr rd rs1 imm) → IsMod s.plat.sentinel (u64 (s.readReg rs1) + signed 12 imm.toNat) →
      ∃ t u, step s = .next t ∧ t.pc = s.plat.sentinel ∧ t.run = .running ∧ SameRegs s t ∧ t.result = none ∧
        t.cnt = { s.cnt with total := s.cnt.total + 1, jump := s.cnt.jump + 1 } ∧
        step t = .next u ∧ u.run = .stopped ∧ SameRegs s u ∧ u.cnt = t.cnt ∧ u.result = some (s.readReg 10)) ∧
    decodeWord 0x00008067 = .ok (.jalr 0 1 0) ∧
    ∀ s : State, s.readReg 1 = s.plat.sentinel → IsMod s.plat.sentinel (u64 (s.readReg 1) + signed 12 (0 : BitVec 12).toNat)

/-- The end of a run, 50_fetch_dispatch.md section 3; terminal states stay (log 7). -/
def Obligations.ACompletedRunKeepsItsResult : Prop :=
  ∀ (k j : Nat) (s : State) (v : Word), CompletesWith k s v → k ≤ j → CompletesWith j s v

/-- The pc alignment obligation of software, 70_reset_and_hazards.md section 3; the engine does not enforce it. -/
def Obligations.ThePcStaysAlignedUnderItsObligation : Prop :=
  ∀ (i : Instr) (s t : State), s.PcAligned → pcOffset i % 4 = 0 →
    (∀ rd rs1 imm, i = .jalr rd rs1 imm → (s.effAddr rs1 imm).toNat % 4 = 0) → exec i s = .next t → t.PcAligned
end

