-- ==== Sys2Proof/Laws/Decode.lean ====
section
/-! SUPPORT. Fields of words: what a field of a word is as a number, what the fields of an encoded word are, and that bytes
and words are two spellings of one thing. -/

namespace Sys2Proof

/-- A field as arithmetic (R7): `(word >> start) mod 2^width`. -/
theorem extractBits_toNat (iw : InstrWord) (start width : Nat) :
    (extractBits iw start width).toNat = iw.toNat / 2 ^ start % 2 ^ width := by
  simp [extractBits, BitVec.extractLsb'_toNat, Nat.shiftRight_eq_div_pow]

/-- Concatenation as arithmetic (R6). -/
theorem append_toNat {n m : Nat} (x : BitVec n) (y : BitVec m) : (x ++ y).toNat = x.toNat * 2 ^ m + y.toNat := by
  rw [BitVec.toNat_append, ← Nat.shiftLeft_add_eq_or_of_lt y.isLt, Nat.shiftLeft_eq]

theorem append_congr {n m : Nat} {x x' : BitVec n} {y y' : BitVec m} (hx : x = x') (hy : y = y') :
    x ++ y = x' ++ y' := by rw [hx, hy]

/-- One bit as arithmetic. -/
theorem getLsbD_eq_decide (iw : InstrWord) (k : Nat) : iw.getLsbD k = decide (iw.toNat / 2 ^ k % 2 = 1) := by
  rw [BitVec.getLsbD, Nat.testBit_eq_decide_div_mod_eq]

/-! ## Bytes and words (R31) -/

theorem wordOfBytes_bytes (iw : InstrWord) :
    wordOfBytes (extractBits iw 0 8) (extractBits iw 8 8) (extractBits iw 16 8) (extractBits iw 24 8) = iw := by
  apply BitVec.eq_of_toNat_eq
  simp only [wordOfBytes, append_toNat, extractBits_toNat]
  have := iw.isLt
  omega

/-- Decoding the bytes of a word is decoding the word. -/
theorem decode_bytesOfWord (iw : InstrWord) (rest : List Byte) :
    decode (bytesOfWord iw ++ rest) =
      match decodeWord iw with
      | .ok i => .ok (i, rest)
      | .error r => .error (.unsupported r) := by
  cases h : decodeWord iw <;> simp [bytesOfWord, decode, wordOfBytes_bytes, h]

/-- What the host reads is what the decoder reads from the word. -/
theorem decodeTableWord_eq (nbits w : Nat) :
    decodeTableWord nbits w = (decodeWord (tableWord nbits w)).toOption := by
  have h := decode_bytesOfWord (tableWord nbits w) []
  rw [List.append_nil] at h
  rw [decodeTableWord, h]
  cases decodeWord (tableWord nbits w) <;> rfl

/-! ## The fields of an encoded word (R52, R71)

Each format's word as a number first; a field of it is then linear arithmetic. -/

section Fields
variable (funct7 opcode : BitVec 7) (rs2 rs1 rd : Reg) (funct3 : BitVec 3) (hi shamt : BitVec 6)

theorem encR_toNat :
    (encR funct7 rs2 rs1 funct3 rd opcode).toNat =
      funct7.toNat * 2 ^ 25 + rs2.toNat * 2 ^ 20 + rs1.toNat * 2 ^ 15 + funct3.toNat * 2 ^ 12 + rd.toNat * 2 ^ 7
        + opcode.toNat := by
  simp only [encR, append_toNat]
  omega

@[simp] theorem opcodeOf_encR : opcodeOf (encR funct7 rs2 rs1 funct3 rd opcode) = opcode := by
  apply BitVec.eq_of_toNat_eq
  simp only [opcodeOf, extractBits_toNat, encR_toNat]
  have := funct7.isLt
  have := rs2.isLt
  have := rs1.isLt
  have := funct3.isLt
  have := rd.isLt
  have := opcode.isLt
  omega

@[simp] theorem rdOf_encR : rdOf (encR funct7 rs2 rs1 funct3 rd opcode) = rd := by
  apply BitVec.eq_of_toNat_eq
  simp only [rdOf, extractBits_toNat, encR_toNat]
  have := funct7.isLt
  have := rs2.isLt
  have := rs1.isLt
  have := funct3.isLt
  have := rd.isLt
  have := opcode.isLt
  omega

@[simp] theorem funct3Of_encR : funct3Of (encR funct7 rs2 rs1 funct3 rd opcode) = funct3 := by
  apply BitVec.eq_of_toNat_eq
  simp only [funct3Of, extractBits_toNat, encR_toNat]
  have := funct7.isLt
  have := rs2.isLt
  have := rs1.isLt
  have := funct3.isLt
  have := rd.isLt
  have := opcode.isLt
  omega

@[simp] theorem rs1Of_encR : rs1Of (encR funct7 rs2 rs1 funct3 rd opcode) = rs1 := by
  apply BitVec.eq_of_toNat_eq
  simp only [rs1Of, extractBits_toNat, encR_toNat]
  have := funct7.isLt
  have := rs2.isLt
  have := rs1.isLt
  have := funct3.isLt
  have := rd.isLt
  have := opcode.isLt
  omega

@[simp] theorem rs2Of_encR : rs2Of (encR funct7 rs2 rs1 funct3 rd opcode) = rs2 := by
  apply BitVec.eq_of_toNat_eq
  simp only [rs2Of, extractBits_toNat, encR_toNat]
  have := funct7.isLt
  have := rs2.isLt
  have := rs1.isLt
  have := funct3.isLt
  have := rd.isLt
  have := opcode.isLt
  omega

@[simp] theorem funct7Of_encR : funct7Of (encR funct7 rs2 rs1 funct3 rd opcode) = funct7 := by
  apply BitVec.eq_of_toNat_eq
  simp only [funct7Of, extractBits_toNat, encR_toNat]
  have := funct7.isLt
  have := rs2.isLt
  have := rs1.isLt
  have := funct3.isLt
  have := rd.isLt
  have := opcode.isLt
  omega

/-- The two bits of funct7 the R executor looks at (R64). -/
@[simp] theorem funct7Bit5_encR : funct7Bit5 (encR funct7 rs2 rs1 funct3 rd opcode) = funct7[5] := by
  have h := congrArg (BitVec.getLsbD · 5) (funct7Of_encR funct7 opcode rs2 rs1 rd funct3)
  simpa [funct7Of, extractBits, funct7Bit5] using h

@[simp] theorem funct7Bit0_encR : funct7Bit0 (encR funct7 rs2 rs1 funct3 rd opcode) = funct7[0] := by
  have h := congrArg (BitVec.getLsbD · 0) (funct7Of_encR funct7 opcode rs2 rs1 rd funct3)
  simpa [funct7Of, extractBits, funct7Bit0] using h

theorem encI_toNat (imm : BitVec 12) :
    (encI imm rs1 funct3 rd opcode).toNat =
      imm.toNat * 2 ^ 20 + rs1.toNat * 2 ^ 15 + funct3.toNat * 2 ^ 12 + rd.toNat * 2 ^ 7 + opcode.toNat := by
  simp only [encI, append_toNat]
  omega

@[simp] theorem opcodeOf_encI (imm : BitVec 12) : opcodeOf (encI imm rs1 funct3 rd opcode) = opcode := by
  apply BitVec.eq_of_toNat_eq
  simp only [opcodeOf, extractBits_toNat, encI_toNat]
  have := imm.isLt
  have := rs1.isLt
  have := funct3.isLt
  have := rd.isLt
  have := opcode.isLt
  omega

@[simp] theorem rdOf_encI (imm : BitVec 12) : rdOf (encI imm rs1 funct3 rd opcode) = rd := by
  apply BitVec.eq_of_toNat_eq
  simp only [rdOf, extractBits_toNat, encI_toNat]
  have := imm.isLt
  have := rs1.isLt
  have := funct3.isLt
  have := rd.isLt
  have := opcode.isLt
  omega

@[simp] theorem funct3Of_encI (imm : BitVec 12) : funct3Of (encI imm rs1 funct3 rd opcode) = funct3 := by
  apply BitVec.eq_of_toNat_eq
  simp only [funct3Of, extractBits_toNat, encI_toNat]
  have := imm.isLt
  have := rs1.isLt
  have := funct3.isLt
  have := rd.isLt
  have := opcode.isLt
  omega

@[simp] theorem rs1Of_encI (imm : BitVec 12) : rs1Of (encI imm rs1 funct3 rd opcode) = rs1 := by
  apply BitVec.eq_of_toNat_eq
  simp only [rs1Of, extractBits_toNat, encI_toNat]
  have := imm.isLt
  have := rs1.isLt
  have := funct3.isLt
  have := rd.isLt
  have := opcode.isLt
  omega

@[simp] theorem immIOf_encI (imm : BitVec 12) : immIOf (encI imm rs1 funct3 rd opcode) = imm := by
  apply BitVec.eq_of_toNat_eq
  simp only [immIOf, extractBits_toNat, encI_toNat]
  have := imm.isLt
  have := rs1.isLt
  have := funct3.isLt
  have := rd.isLt
  have := opcode.isLt
  omega

theorem encShift_toNat :
    (encShift hi shamt rs1 funct3 rd opcode).toNat =
      hi.toNat * 2 ^ 26 + shamt.toNat * 2 ^ 20 + rs1.toNat * 2 ^ 15 + funct3.toNat * 2 ^ 12 + rd.toNat * 2 ^ 7
        + opcode.toNat := by
  simp only [encShift, append_toNat]
  omega

@[simp] theorem opcodeOf_encShift : opcodeOf (encShift hi shamt rs1 funct3 rd opcode) = opcode := by
  apply BitVec.eq_of_toNat_eq
  simp only [opcodeOf, extractBits_toNat, encShift_toNat]
  have := hi.isLt
  have := shamt.isLt
  have := rs1.isLt
  have := funct3.isLt
  have := rd.isLt
  have := opcode.isLt
  omega

@[simp] theorem rdOf_encShift : rdOf (encShift hi shamt rs1 funct3 rd opcode) = rd := by
  apply BitVec.eq_of_toNat_eq
  simp only [rdOf, extractBits_toNat, encShift_toNat]
  have := hi.isLt
  have := shamt.isLt
  have := rs1.isLt
  have := funct3.isLt
  have := rd.isLt
  have := opcode.isLt
  omega

@[simp] theorem funct3Of_encShift : funct3Of (encShift hi shamt rs1 funct3 rd opcode) = funct3 := by
  apply BitVec.eq_of_toNat_eq
  simp only [funct3Of, extractBits_toNat, encShift_toNat]
  have := hi.isLt
  have := shamt.isLt
  have := rs1.isLt
  have := funct3.isLt
  have := rd.isLt
  have := opcode.isLt
  omega

@[simp] theorem rs1Of_encShift : rs1Of (encShift hi shamt rs1 funct3 rd opcode) = rs1 := by
  apply BitVec.eq_of_toNat_eq
  simp only [rs1Of, extractBits_toNat, encShift_toNat]
  have := hi.isLt
  have := shamt.isLt
  have := rs1.isLt
  have := funct3.isLt
  have := rd.isLt
  have := opcode.isLt
  omega

@[simp] theorem shamtOf_encShift : shamtOf (encShift hi shamt rs1 funct3 rd opcode) = shamt := by
  apply BitVec.eq_of_toNat_eq
  simp only [shamtOf, extractBits_toNat, encShift_toNat]
  have := hi.isLt
  have := shamt.isLt
  have := rs1.isLt
  have := funct3.isLt
  have := rd.isLt
  have := opcode.isLt
  omega

@[simp] theorem shamtHiOf_encShift : shamtHiOf (encShift hi shamt rs1 funct3 rd opcode) = hi := by
  apply BitVec.eq_of_toNat_eq
  simp only [shamtHiOf, extractBits_toNat, encShift_toNat]
  have := hi.isLt
  have := shamt.isLt
  have := rs1.isLt
  have := funct3.isLt
  have := rd.isLt
  have := opcode.isLt
  omega

@[simp] theorem opcodeOf_encS (imm : BitVec 12) : opcodeOf (encS imm rs2 rs1 funct3 opcode) = opcode := by
  unfold encS
  generalize imm.extractLsb' 5 7 = p
  generalize imm.extractLsb' 0 5 = q
  apply BitVec.eq_of_toNat_eq
  simp only [opcodeOf, append_toNat, extractBits_toNat]
  have := p.isLt
  have := q.isLt
  have := rs2.isLt
  have := rs1.isLt
  have := funct3.isLt
  have := opcode.isLt
  omega

@[simp] theorem funct3Of_encS (imm : BitVec 12) : funct3Of (encS imm rs2 rs1 funct3 opcode) = funct3 := by
  unfold encS
  generalize imm.extractLsb' 5 7 = p
  generalize imm.extractLsb' 0 5 = q
  apply BitVec.eq_of_toNat_eq
  simp only [funct3Of, append_toNat, extractBits_toNat]
  have := p.isLt
  have := q.isLt
  have := rs2.isLt
  have := rs1.isLt
  have := funct3.isLt
  have := opcode.isLt
  omega

@[simp] theorem rs1Of_encS (imm : BitVec 12) : rs1Of (encS imm rs2 rs1 funct3 opcode) = rs1 := by
  unfold encS
  generalize imm.extractLsb' 5 7 = p
  generalize imm.extractLsb' 0 5 = q
  apply BitVec.eq_of_toNat_eq
  simp only [rs1Of, append_toNat, extractBits_toNat]
  have := p.isLt
  have := q.isLt
  have := rs2.isLt
  have := rs1.isLt
  have := funct3.isLt
  have := opcode.isLt
  omega

@[simp] theorem rs2Of_encS (imm : BitVec 12) : rs2Of (encS imm rs2 rs1 funct3 opcode) = rs2 := by
  unfold encS
  generalize imm.extractLsb' 5 7 = p
  generalize imm.extractLsb' 0 5 = q
  apply BitVec.eq_of_toNat_eq
  simp only [rs2Of, append_toNat, extractBits_toNat]
  have := p.isLt
  have := q.isLt
  have := rs2.isLt
  have := rs1.isLt
  have := funct3.isLt
  have := opcode.isLt
  omega

/-- The pieces of the immediate lie where the decoder takes them from. -/
theorem immSOf_encS_pieces (imm : BitVec 12) :
    immSOf (encS imm rs2 rs1 funct3 opcode) = imm.extractLsb' 5 7 ++ imm.extractLsb' 0 5 := by
  unfold encS
  generalize imm.extractLsb' 5 7 = p
  generalize imm.extractLsb' 0 5 = q
  apply BitVec.eq_of_toNat_eq
  simp only [immSOf, append_toNat, extractBits_toNat]
  have := p.isLt
  have := q.isLt
  have := rs2.isLt
  have := rs1.isLt
  have := funct3.isLt
  have := opcode.isLt
  omega

@[simp] theorem immSOf_encS (imm : BitVec 12) : immSOf (encS imm rs2 rs1 funct3 opcode) = imm := by
  rw [immSOf_encS_pieces]
  apply BitVec.eq_of_toNat_eq
  simp only [append_toNat, BitVec.extractLsb'_toNat, Nat.shiftRight_eq_div_pow]
  have := imm.isLt
  omega

@[simp] theorem opcodeOf_encB (imm : BitVec 13) : opcodeOf (encB imm rs2 rs1 funct3 opcode) = opcode := by
  unfold encB
  generalize imm.extractLsb' 12 1 = p
  generalize imm.extractLsb' 5 6 = q
  generalize imm.extractLsb' 1 4 = u
  generalize imm.extractLsb' 11 1 = v
  apply BitVec.eq_of_toNat_eq
  simp only [opcodeOf, append_toNat, extractBits_toNat]
  have := p.isLt
  have := q.isLt
  have := u.isLt
  have := v.isLt
  have := rs2.isLt
  have := rs1.isLt
  have := funct3.isLt
  have := opcode.isLt
  omega

@[simp] theorem funct3Of_encB (imm : BitVec 13) : funct3Of (encB imm rs2 rs1 funct3 opcode) = funct3 := by
  unfold encB
  generalize imm.extractLsb' 12 1 = p
  generalize imm.extractLsb' 5 6 = q
  generalize imm.extractLsb' 1 4 = u
  generalize imm.extractLsb' 11 1 = v
  apply BitVec.eq_of_toNat_eq
  simp only [funct3Of, append_toNat, extractBits_toNat]
  have := p.isLt
  have := q.isLt
  have := u.isLt
  have := v.isLt
  have := rs2.isLt
  have := rs1.isLt
  have := funct3.isLt
  have := opcode.isLt
  omega

@[simp] theorem rs1Of_encB (imm : BitVec 13) : rs1Of (encB imm rs2 rs1 funct3 opcode) = rs1 := by
  unfold encB
  generalize imm.extractLsb' 12 1 = p
  generalize imm.extractLsb' 5 6 = q
  generalize imm.extractLsb' 1 4 = u
  generalize imm.extractLsb' 11 1 = v
  apply BitVec.eq_of_toNat_eq
  simp only [rs1Of, append_toNat, extractBits_toNat]
  have := p.isLt
  have := q.isLt
  have := u.isLt
  have := v.isLt
  have := rs2.isLt
  have := rs1.isLt
  have := funct3.isLt
  have := opcode.isLt
  omega

@[simp] theorem rs2Of_encB (imm : BitVec 13) : rs2Of (encB imm rs2 rs1 funct3 opcode) = rs2 := by
  unfold encB
  generalize imm.extractLsb' 12 1 = p
  generalize imm.extractLsb' 5 6 = q
  generalize imm.extractLsb' 1 4 = u
  generalize imm.extractLsb' 11 1 = v
  apply BitVec.eq_of_toNat_eq
  simp only [rs2Of, append_toNat, extractBits_toNat]
  have := p.isLt
  have := q.isLt
  have := u.isLt
  have := v.isLt
  have := rs2.isLt
  have := rs1.isLt
  have := funct3.isLt
  have := opcode.isLt
  omega

/-- The pieces of the immediate lie where the decoder takes them from. -/
theorem immBOf_encB_pieces (imm : BitVec 13) :
    immBOf (encB imm rs2 rs1 funct3 opcode) = imm.extractLsb' 12 1 ++ imm.extractLsb' 11 1 ++ imm.extractLsb' 5 6 ++ imm.extractLsb' 1 4 ++ 0#1 := by
  unfold encB
  generalize imm.extractLsb' 12 1 = p
  generalize imm.extractLsb' 5 6 = q
  generalize imm.extractLsb' 1 4 = u
  generalize imm.extractLsb' 11 1 = v
  have := p.isLt
  have := q.isLt
  have := u.isLt
  have := v.isLt
  have := rs2.isLt
  have := rs1.isLt
  have := funct3.isLt
  have := opcode.isLt
  refine append_congr (append_congr (append_congr (append_congr ?_ ?_) ?_) ?_) rfl <;>
    apply BitVec.eq_of_toNat_eq <;> simp only [append_toNat, extractBits_toNat] <;> omega

@[simp] theorem immBOf_encB (imm : BitVec 13) (h : imm[0] = false) : immBOf (encB imm rs2 rs1 funct3 opcode) = imm := by
  have h0 : imm.toNat % 2 = 0 := by
    simpa [← BitVec.getLsbD_eq_getElem, BitVec.getLsbD, Nat.testBit_eq_decide_div_mod_eq] using h
  rw [immBOf_encB_pieces]
  apply BitVec.eq_of_toNat_eq
  simp only [append_toNat, BitVec.extractLsb'_toNat, Nat.shiftRight_eq_div_pow, BitVec.toNat_ofNat]
  have := imm.isLt
  omega

@[simp] theorem opcodeOf_encJ (imm : BitVec 21) : opcodeOf (encJ imm rd opcode) = opcode := by
  unfold encJ
  generalize imm.extractLsb' 20 1 = p
  generalize imm.extractLsb' 1 10 = q
  generalize imm.extractLsb' 11 1 = u
  generalize imm.extractLsb' 12 8 = v
  apply BitVec.eq_of_toNat_eq
  simp only [opcodeOf, append_toNat, extractBits_toNat]
  have := p.isLt
  have := q.isLt
  have := u.isLt
  have := v.isLt
  have := rd.isLt
  have := opcode.isLt
  omega

@[simp] theorem rdOf_encJ (imm : BitVec 21) : rdOf (encJ imm rd opcode) = rd := by
  unfold encJ
  generalize imm.extractLsb' 20 1 = p
  generalize imm.extractLsb' 1 10 = q
  generalize imm.extractLsb' 11 1 = u
  generalize imm.extractLsb' 12 8 = v
  apply BitVec.eq_of_toNat_eq
  simp only [rdOf, append_toNat, extractBits_toNat]
  have := p.isLt
  have := q.isLt
  have := u.isLt
  have := v.isLt
  have := rd.isLt
  have := opcode.isLt
  omega

/-- The pieces of the immediate lie where the decoder takes them from. -/
theorem immJOf_encJ_pieces (imm : BitVec 21) :
    immJOf (encJ imm rd opcode) = imm.extractLsb' 20 1 ++ imm.extractLsb' 12 8 ++ imm.extractLsb' 11 1 ++ imm.extractLsb' 1 10 ++ 0#1 := by
  unfold encJ
  generalize imm.extractLsb' 20 1 = p
  generalize imm.extractLsb' 1 10 = q
  generalize imm.extractLsb' 11 1 = u
  generalize imm.extractLsb' 12 8 = v
  have := p.isLt
  have := q.isLt
  have := u.isLt
  have := v.isLt
  have := rd.isLt
  have := opcode.isLt
  refine append_congr (append_congr (append_congr (append_congr ?_ ?_) ?_) ?_) rfl <;>
    apply BitVec.eq_of_toNat_eq <;> simp only [append_toNat, extractBits_toNat] <;> omega

@[simp] theorem immJOf_encJ (imm : BitVec 21) (h : imm[0] = false) : immJOf (encJ imm rd opcode) = imm := by
  have h0 : imm.toNat % 2 = 0 := by
    simpa [← BitVec.getLsbD_eq_getElem, BitVec.getLsbD, Nat.testBit_eq_decide_div_mod_eq] using h
  rw [immJOf_encJ_pieces]
  apply BitVec.eq_of_toNat_eq
  simp only [append_toNat, BitVec.extractLsb'_toNat, Nat.shiftRight_eq_div_pow, BitVec.toNat_ofNat]
  have := imm.isLt
  omega

end Fields

end Sys2Proof
end

