-- ==== Sys2Proof/Laws/State.lean ====
section
/-! SUPPORT. What each update of the state does to each field, and how registers read after it. -/

namespace Sys2Proof.Machine

section Fields
variable (s : State) (r : Reg) (v : Word) (c : Category) (npc : Word) (iw : InstrWord) (u : Unsupported)

@[simp] theorem writeReg_regs : (s.writeReg r v).regs = if r = 0 then s.regs else s.regs.set r.toNat v r.isLt := rfl
@[simp] theorem writeReg_pc : (s.writeReg r v).pc = s.pc := rfl
@[simp] theorem writeReg_run : (s.writeReg r v).run = s.run := rfl
@[simp] theorem writeReg_fault : (s.writeReg r v).fault = s.fault := rfl
@[simp] theorem writeReg_cnt : (s.writeReg r v).cnt = s.cnt := rfl
@[simp] theorem writeReg_cacheEn : (s.writeReg r v).cacheEn = s.cacheEn := rfl
@[simp] theorem writeReg_icache : (s.writeReg r v).icache = s.icache := rfl
@[simp] theorem writeReg_mem : (s.writeReg r v).mem = s.mem := rfl
@[simp] theorem writeReg_plat : (s.writeReg r v).plat = s.plat := rfl

@[simp] theorem retire_regs : (s.retire c npc).regs = s.regs := rfl
@[simp] theorem retire_pc : (s.retire c npc).pc = npc := rfl
@[simp] theorem retire_run : (s.retire c npc).run = s.run := rfl
@[simp] theorem retire_fault : (s.retire c npc).fault = s.fault := rfl
@[simp] theorem retire_cnt : (s.retire c npc).cnt = s.cnt.bump c := rfl
@[simp] theorem retire_cacheEn : (s.retire c npc).cacheEn = s.cacheEn := rfl
@[simp] theorem retire_icache : (s.retire c npc).icache = s.icache := rfl
@[simp] theorem retire_mem : (s.retire c npc).mem = s.mem := rfl
@[simp] theorem retire_plat : (s.retire c npc).plat = s.plat := rfl

@[simp] theorem stop_regs : (s.stop).regs = s.regs := rfl
@[simp] theorem stop_pc : (s.stop).pc = s.pc := rfl
@[simp] theorem stop_run : (s.stop).run = .stopped := rfl
@[simp] theorem stop_fault : (s.stop).fault = s.fault := rfl
@[simp] theorem stop_cnt : (s.stop).cnt = s.cnt := rfl
@[simp] theorem stop_cacheEn : (s.stop).cacheEn = s.cacheEn := rfl
@[simp] theorem stop_icache : (s.stop).icache = s.icache := rfl
@[simp] theorem stop_mem : (s.stop).mem = s.mem := rfl
@[simp] theorem stop_plat : (s.stop).plat = s.plat := rfl

@[simp] theorem afterFetch_regs : (s.afterFetch iw).regs = s.regs := rfl
@[simp] theorem afterFetch_pc : (s.afterFetch iw).pc = s.pc := rfl
@[simp] theorem afterFetch_run : (s.afterFetch iw).run = s.run := rfl
@[simp] theorem afterFetch_fault : (s.afterFetch iw).fault = s.fault := rfl
@[simp] theorem afterFetch_cnt : (s.afterFetch iw).cnt = s.cnt.bumpTotal := rfl
@[simp] theorem afterFetch_cacheEn : (s.afterFetch iw).cacheEn = s.cacheEn := rfl
@[simp] theorem afterFetch_icache : (s.afterFetch iw).icache = if s.cacheEn then Config.icacheAfterLookup s.icache s.pc iw else s.icache := rfl
@[simp] theorem afterFetch_mem : (s.afterFetch iw).mem = s.mem := rfl
@[simp] theorem afterFetch_plat : (s.afterFetch iw).plat = s.plat := rfl

@[simp] theorem raiseUnsupported_regs : (raiseUnsupported u s).regs = s.regs := rfl
@[simp] theorem raiseUnsupported_pc : (raiseUnsupported u s).pc = s.pc := rfl
@[simp] theorem raiseUnsupported_run : (raiseUnsupported u s).run = .faulted := rfl
@[simp] theorem raiseUnsupported_fault : (raiseUnsupported u s).fault = some u := rfl
@[simp] theorem raiseUnsupported_cnt : (raiseUnsupported u s).cnt = s.cnt := rfl
@[simp] theorem raiseUnsupported_cacheEn : (raiseUnsupported u s).cacheEn = s.cacheEn := rfl
@[simp] theorem raiseUnsupported_icache : (raiseUnsupported u s).icache = s.icache := rfl
@[simp] theorem raiseUnsupported_mem : (raiseUnsupported u s).mem = s.mem := rfl
@[simp] theorem raiseUnsupported_plat : (raiseUnsupported u s).plat = s.plat := rfl

@[simp] theorem putWordAtPc_regs : (s.putWordAtPc iw).regs = s.regs := rfl
@[simp] theorem putWordAtPc_pc : (s.putWordAtPc iw).pc = s.pc := rfl
@[simp] theorem putWordAtPc_run : (s.putWordAtPc iw).run = s.run := rfl
@[simp] theorem putWordAtPc_fault : (s.putWordAtPc iw).fault = s.fault := rfl
@[simp] theorem putWordAtPc_cnt : (s.putWordAtPc iw).cnt = s.cnt := rfl
@[simp] theorem putWordAtPc_cacheEn : (s.putWordAtPc iw).cacheEn = s.cacheEn := rfl
@[simp] theorem putWordAtPc_icache : (s.putWordAtPc iw).icache = s.icache := rfl
@[simp] theorem putWordAtPc_mem : (s.putWordAtPc iw).mem = storeBytes s.mem s.pc 4 (iw.setWidth 64) := rfl
@[simp] theorem putWordAtPc_plat : (s.putWordAtPc iw).plat = s.plat := rfl

end Fields

/-! ## Registers -/

/-- Register reads depend on the register file alone. -/
theorem readReg_congr {s t : State} (h : t.regs = s.regs) (r : Reg) : t.readReg r = s.readReg r := by
  simp only [State.readReg, h]

@[simp] theorem readReg_zero (s : State) : s.readReg 0#5 = 0#64 := rfl

/-- R11: the written register reads as the value, unless it is register 0; every other register is unchanged. -/
@[simp] theorem readReg_writeReg (s : State) (rd r : Reg) (v : Word) :
    (s.writeReg rd v).readReg r = if r = rd ∧ r ≠ 0 then v else s.readReg r := by
  by_cases hr : r = 0
  · subst hr; simp
  by_cases h : r = rd
  · subst h
    simp only [State.readReg, State.writeReg, if_neg hr, Vector.getElem_set_self, true_and, if_pos (show r ≠ 0 from hr)]
  · have hne : rd.toNat ≠ r.toNat := fun e => h (BitVec.eq_of_toNat_eq e.symm)
    have hno : ¬(r = rd ∧ r ≠ 0) := fun e => h e.1
    simp only [State.readReg, State.writeReg, if_neg hr, if_neg hno]
    split
    · rfl
    · exact Vector.getElem_set_ne _ _ hne

@[simp] theorem readReg_retire (s : State) (c : Category) (npc : Word) (r : Reg) :
    (s.retire c npc).readReg r = s.readReg r := rfl
@[simp] theorem readReg_stop (s : State) (r : Reg) : s.stop.readReg r = s.readReg r := rfl
@[simp] theorem readReg_afterFetch (s : State) (iw : InstrWord) (r : Reg) :
    (s.afterFetch iw).readReg r = s.readReg r := rfl
@[simp] theorem readReg_raiseUnsupported (s : State) (u : Unsupported) (r : Reg) :
    (raiseUnsupported u s).readReg r = s.readReg r := rfl

/-- The unused storage of register 0 is never written. -/
@[simp] theorem slot_zero_writeReg (s : State) (r : Reg) (v : Word) : (s.writeReg r v).regs[0] = s.regs[0] := by
  simp only [writeReg_regs]
  split
  · rfl
  · next h => exact Vector.getElem_set_ne _ _ fun e => h (BitVec.eq_of_toNat_eq (by simpa using e))

/-! ## Counters -/

section Counters
variable (c : Counters) (k : Category)

@[simp] theorem bump_total : (c.bump k).total = c.total := by cases k <;> rfl

/-- Whatever the category, its counter and so the sum of the six goes up by one. -/
theorem categories_bump : (c.bump k).categories = c.categories + 1 := by
  cases k <;> simp only [Counters.bump, Counters.categories] <;> ring

@[simp] theorem bumpTotal_total : c.bumpTotal.total = c.total + 1 := rfl
@[simp] theorem bumpTotal_arith : c.bumpTotal.arith = c.arith := rfl
@[simp] theorem bumpTotal_load : c.bumpTotal.load = c.load := rfl
@[simp] theorem bumpTotal_store : c.bumpTotal.store = c.store := rfl
@[simp] theorem bumpTotal_jump : c.bumpTotal.jump = c.jump := rfl
@[simp] theorem bumpTotal_brTaken : c.bumpTotal.brTaken = c.brTaken := rfl
@[simp] theorem bumpTotal_brNotTaken : c.bumpTotal.brNotTaken = c.brNotTaken := rfl
@[simp] theorem categories_bumpTotal : c.bumpTotal.categories = c.categories := rfl

end Counters

/-! ## Reset -/

/-- `State.reset` is the launch with the inputs of log 4 on the platform of logs 1 to 3, memory with nothing listed. -/
theorem reset_is_launch (s : State) (h : s.plat = Config.resetPlatform) :
    launch Config.resetInputs [] s = State.reset := by
  simp only [launch, h]; rfl

end Sys2Proof.Machine
end

