-- ==== Sys2Proof/Laws/Memory.lean ====
section
/-! SUPPORT. Memory: the read-after-write laws, the canonical form is kept by every operation, and what accesses of several
bytes read and write. -/

namespace Sys2Proof.Machine

/-! ## One byte -/

/-- What the canonical form says of its head and its tail. -/
theorem wf_cons {a : Nat} {v : Byte} {m : Memory} :
    Memory.wf ((a, v) :: m) = true ↔
      a < 2 ^ 64 ∧ v ≠ Config.unlistedByte ∧ (∀ c ∈ m, a < c.1) ∧ Memory.wf m = true := by
  simp [Memory.wf, and_assoc]

/-- An address below every listed one is not listed. -/
theorem get_of_below {m : Memory} {a : Nat} (h : ∀ c ∈ m, a < c.1) : Memory.get m a = Config.unlistedByte := by
  induction m with
  | nil => rfl
  | cons c m ih =>
    have hc : a ≠ c.1 := Nat.ne_of_lt (h c (by simp))
    rw [Memory.get, if_neg hc]
    exact ih fun c' hc' => h c' (by simp [hc'])

/-- Reading through an entry placed below the rest. -/
theorem get_consCell {m : Memory} {a : Nat} (h : ∀ c ∈ m, a < c.1) (v : Byte) (b : Nat) :
    Memory.get (Memory.consCell a v m) b = if b = a then v else Memory.get m b := by
  unfold Memory.consCell
  split
  · split
    · next hv hb => rw [hb, get_of_below h, hv]
    · rfl
  · rfl

/-- Placing an entry below the rest keeps the canonical form. -/
theorem wf_consCell {m : Memory} {a : Nat} (ha : a < 2 ^ 64) (h : ∀ c ∈ m, a < c.1) (hm : Memory.wf m = true)
    (v : Byte) : Memory.wf (Memory.consCell a v m) = true := by
  unfold Memory.consCell
  split
  · exact hm
  · next hv => exact wf_cons.mpr ⟨ha, hv, h, hm⟩

/-- Every address listed after a write was listed before or is the one written. -/
theorem mem_put {m : Memory} {a : Nat} {v : Byte} {c : Host.Cell} (h : c ∈ Memory.put m a v) : c ∈ m ∨ c.1 = a := by
  have cons : ∀ (a : Nat) (v : Byte) (m : Memory), c ∈ Memory.consCell a v m → c ∈ m ∨ c.1 = a := by
    intro a v m h
    unfold Memory.consCell at h
    split at h
    · exact .inl h
    · rcases List.mem_cons.mp h with rfl | h
      · exact .inr rfl
      · exact .inl h
  induction m with
  | nil => exact cons _ _ _ h
  | cons d m ih =>
    rw [Memory.put] at h
    split at h
    · exact cons _ _ _ h
    split at h
    · exact (cons _ _ _ h).imp_left (List.mem_cons_of_mem _)
    · rcases List.mem_cons.mp h with rfl | h
      · exact .inl (by simp)
      · exact (ih h).imp_left (List.mem_cons_of_mem _)

/-- Every write of one byte keeps the canonical form. -/
theorem wf_put {m : Memory} {a : Nat} (ha : a < 2 ^ 64) (hm : Memory.wf m = true) (v : Byte) :
    Memory.wf (Memory.put m a v) = true := by
  induction m with
  | nil => exact wf_consCell ha (by simp) rfl v
  | cons d m ih =>
    obtain ⟨hd, hne, hlt, hwf⟩ := wf_cons.mp hm
    rw [Memory.put]
    split
    · next hab =>
      refine wf_consCell ha ?_ hm v
      intro c hc
      rcases List.mem_cons.mp hc with rfl | hc
      · exact hab
      · exact hab.trans (hlt c hc)
    split
    · next hab => exact wf_consCell ha (hab ▸ hlt) hwf v
    · next h1 h2 =>
      refine wf_cons.mpr ⟨hd, hne, fun c hc => ?_, ih hwf⟩
      rcases mem_put hc with hc | hc
      · exact hlt c hc
      · omega

/-- Read after write: the byte written at its address, every other byte as before. -/
theorem get_put {m : Memory} (hm : Memory.wf m = true) (a : Nat) (v : Byte) (b : Nat) :
    Memory.get (Memory.put m a v) b = if b = a then v else Memory.get m b := by
  induction m with
  | nil => exact get_consCell (by simp) v b
  | cons d m ih =>
    obtain ⟨-, -, hlt, hwf⟩ := wf_cons.mp hm
    rw [Memory.put]
    split
    · next hab =>
      refine get_consCell (fun c hc => ?_) v b
      rcases List.mem_cons.mp hc with rfl | hc
      · exact hab
      · exact hab.trans (hlt c hc)
    split
    · next hab =>
      rw [get_consCell (hab ▸ hlt), Memory.get, hab]
      split <;> rfl
    · next h1 h2 =>
      rw [Memory.get, Memory.get, ih hwf]
      by_cases hb : b = d.1
      · have : ¬b = a := fun e => h2 (e.symm.trans hb)
        rw [if_pos hb, if_neg this, if_pos hb]
      · rw [if_neg hb, if_neg hb]

/-! ## Which addresses are mapped -/

/-- R32: the range is mapped when each of its byte addresses is. -/
theorem mappedRange_iff {p : Platform} {a : Word} {n : Nat} :
    mappedRange p a n = true ↔ ∀ i < n, mapped p (a + BitVec.ofNat 64 i) = true := by
  induction n generalizing a with
  | zero => simp [mappedRange]
  | succ n ih =>
    rw [mappedRange, Bool.and_eq_true, ih]
    constructor
    · rintro ⟨h0, h⟩ i hi
      cases i with
      | zero => simpa using h0
      | succ i =>
        have := h i (by omega)
        rwa [show a + BitVec.ofNat 64 (i + 1) = a + 1 + BitVec.ofNat 64 i by
          rw [Nat.add_comm, BitVec.ofNat_add, BitVec.add_assoc]; rfl]
    · intro h
      refine ⟨by simpa using h 0 (by omega), fun i hi => ?_⟩
      have := h (i + 1) (by omega)
      rwa [show a + BitVec.ofNat 64 (i + 1) = a + 1 + BitVec.ofNat 64 i by
        rw [Nat.add_comm, BitVec.ofNat_add, BitVec.add_assoc]; rfl] at this

/-! ## Several bytes -/

/-- The distance from `a + 1` and from `a`, around the address space. -/
theorem sub_succ_toNat {a b : Word} (h : b ≠ a) : (b - (a + 1)).toNat + 1 = (b - a).toNat := by
  have hne : b.toNat ≠ a.toNat := fun e => h (BitVec.eq_of_toNat_eq e)
  simp only [BitVec.ofNat_eq_ofNat, BitVec.toNat_sub, BitVec.toNat_add, BitVec.toNat_ofNat]
  have := a.isLt
  have := b.isLt
  omega

/-- The stores of R33 keep the canonical form. -/
theorem wf_storeBytes {m : Memory} (hm : Memory.wf m = true) (a : Word) (n : Nat) (v : Word) :
    Memory.wf (storeBytes m a n v) = true := by
  induction n generalizing m a v with
  | zero => exact hm
  | succ n ih => exact ih (wf_put a.isLt hm _) _ _

/-- R33: byte `i` of the value at `(a + i) mod 2^64`, every other byte as before. -/
theorem get_storeBytes {m : Memory} (hm : Memory.wf m = true) {n : Nat} (hn : n < 2 ^ 64) (a v b : Word) :
    Memory.get (storeBytes m a n v) b.toNat =
      if (b - a).toNat < n then (v >>> (8 * (b - a).toNat)).setWidth 8 else Memory.get m b.toNat := by
  induction n generalizing m a v with
  | zero => simp [storeBytes]
  | succ n ih =>
    rw [storeBytes, ih (wf_put a.isLt hm _) (by omega), get_put hm]
    by_cases h : b = a
    · subst h
      have hfar : ¬(b - (b + 1)).toNat < n := by
        have := b.isLt
        simp only [BitVec.ofNat_eq_ofNat, BitVec.toNat_sub, BitVec.toNat_add, BitVec.toNat_ofNat]
        omega
      rw [if_neg hfar, if_pos rfl, if_pos (by simp)]
      simp
    · have hne : ¬b.toNat = a.toNat := fun e => h (BitVec.eq_of_toNat_eq e)
      have hd := sub_succ_toNat h
      rw [if_neg hne, ← hd, Nat.mul_add, Nat.add_comm (8 * _), BitVec.shiftRight_add]
      by_cases hlt : (b - (a + 1)).toNat < n
      · rw [if_pos hlt, if_pos (by omega)]
      · rw [if_neg hlt, if_neg (by omega)]

/-- A read depends on the bytes it covers alone. -/
theorem loadBytes_congr {m m' : Memory} {a : Word} {n : Nat}
    (h : ∀ i < n, Memory.get m' (a + BitVec.ofNat 64 i).toNat = Memory.get m (a + BitVec.ofNat 64 i).toNat) :
    loadBytes m' a n = loadBytes m a n := by
  induction n generalizing a with
  | zero => rfl
  | succ n ih =>
    have h0 := h 0 (by omega)
    rw [loadBytes, loadBytes, ih fun i hi => ?_]
    · simp only [BitVec.add_zero] at h0
      rw [h0]
    · have := h (i + 1) (by omega)
      rwa [show a + BitVec.ofNat 64 (i + 1) = a + 1 + BitVec.ofNat 64 i by
        rw [Nat.add_comm, BitVec.ofNat_add, BitVec.add_assoc]; rfl] at this

/-- R32: a read is the sum over its bytes. -/
theorem loadBytes_eq_sum (m : Memory) (a : Word) (n : Nat) :
    loadBytes m a n =
      ((List.range n).map fun i => (Memory.get m (a + BitVec.ofNat 64 i).toNat).toNat * 2 ^ (8 * i)).sum := by
  induction n generalizing a with
  | zero => rfl
  | succ n ih =>
    rw [loadBytes, ih, List.range_succ_eq_map, List.map_cons, List.sum_cons, List.map_map, ← List.sum_map_mul_left]
    congr 1
    · simp
    · congr 1
      apply List.map_congr_left
      intro i _
      simp only [Function.comp]
      rw [show a + BitVec.ofNat 64 (i + 1) = a + 1 + BitVec.ofNat 64 i by
        rw [Nat.add_comm, BitVec.ofNat_add, BitVec.add_assoc]; rfl, Nat.succ_eq_add_one, Nat.mul_add, Nat.pow_add]
      ring

/-- `n` bytes make a number below `2^(8 n)`. -/
theorem loadBytes_lt (m : Memory) (a : Word) (n : Nat) : loadBytes m a n < 2 ^ (8 * n) := by
  induction n generalizing a with
  | zero => simp [loadBytes]
  | succ n ih =>
    have h0 := (Memory.get m a.toNat).isLt
    have hp : 2 ^ (8 * (n + 1)) = 256 * 2 ^ (8 * n) := by rw [Nat.mul_add, Nat.pow_add, Nat.mul_comm]
    have := ih (a + 1)
    rw [loadBytes, hp]
    omega

/-- R31, R32, R33: reading back what a store of the same width wrote gives its low `8 n` bits. -/
theorem loadBytes_storeBytes {m : Memory} (hm : Memory.wf m = true) {n : Nat} (hn : n < 2 ^ 64) (a v : Word) :
    loadBytes (storeBytes m a n v) a n = v.toNat % 2 ^ (8 * n) := by
  induction n generalizing m a v with
  | zero => simp [loadBytes, Nat.mod_one]
  | succ n ih =>
    have hfirst := get_storeBytes hm hn a v a
    rw [loadBytes, hfirst, storeBytes, ih (wf_put a.isLt hm _) (by omega)]
    have hp : 2 ^ (8 * (n + 1)) = 256 * 2 ^ (8 * n) := by rw [Nat.mul_add, Nat.pow_add, Nat.mul_comm]
    rw [hp, Nat.mod_mul]
    simp [Nat.shiftRight_eq_div_pow]

end Sys2Proof.Machine
end

