-- ==== Sys2Proof/Laws/Operands.lean ====
section
/-! SUPPORT. The operand forms as integers: sign extension keeps the two's-complement value (R8), so an immediate as a 64-bit
value is the integer its field stands for (R56 to R59); right shifts are floor division (R85, R86). -/

namespace Sys2Proof.Machine

theorem imm12_toInt (i : BitVec 12) : (imm12 i).toInt = i.toInt := BitVec.toInt_signExtend_of_le (by decide)
theorem imm13_toInt (i : BitVec 13) : (imm13 i).toInt = i.toInt := BitVec.toInt_signExtend_of_le (by decide)
theorem imm21_toInt (i : BitVec 21) : (imm21 i).toInt = i.toInt := BitVec.toInt_signExtend_of_le (by decide)

/-- R8: the two's-complement value of the low `w` bits. -/
theorem sext_toInt {w : Nat} (h : w ≤ 64) (v : Word) : (sext w v).toInt = (v.setWidth w).toInt :=
  BitVec.toInt_signExtend_of_le h

/-- R8, D36: `sext` depends on the low `w` bits alone. -/
theorem sext_congr {w : Nat} {u v : Word} (h : u.setWidth w = v.setWidth w) : sext w u = sext w v := by
  rw [sext, sext, h]

/-- The low `w` bits of a sign-extended value are those of the value. -/
theorem setWidth_sext {w : Nat} (h : w ≤ 64) (v : Word) : (sext w v).setWidth w = v.setWidth w := by
  apply BitVec.eq_of_getLsbD_eq
  intro i hi
  simp only [sext, BitVec.getLsbD_setWidth, BitVec.getLsbD_signExtend, hi, decide_true, Bool.true_and, if_true]
  rw [decide_eq_true (Nat.lt_of_lt_of_le hi h), Bool.true_and]

theorem shiftAmount_lt (s : State) (r : Reg) : s.shiftAmount r < 64 := Nat.mod_lt _ (by decide)

/-- R86: an arithmetic right shift is floor division of the signed value. -/
theorem sshiftRight_toInt (x : Word) (k : Nat) : (x.sshiftRight k).toInt = x.toInt / 2 ^ k := by
  rw [BitVec.toInt_sshiftRight, Int.shiftRight_eq_div_pow]
  norm_cast

end Sys2Proof.Machine
end

