-- ==== Sys2Proof/Laws/Ops.lean ====
section
/-! SUPPORT. For each shared operation of the machine one lemma that says all it can do, and the inversion of `exec` and of
`step`: what a next state can be. -/

namespace Sys2Proof.Machine

/-! ## Accesses -/

/-- A read answers exactly when its bytes are mapped, with their little-endian sum (R32, R37). -/
theorem memRead_eq_some {s : State} {a v : Word} {n : Nat} :
    memRead s a n = some v ↔ mappedRange s.plat a n = true ∧ v = BitVec.ofNat 64 (loadBytes s.mem a n) := by
  unfold memRead
  split
  · next h => simp [h, eq_comm]
  · next h => simp [h]

theorem memRead_eq_none {s : State} {a : Word} {n : Nat} :
    memRead s a n = none ↔ mappedRange s.plat a n = false := by
  unfold memRead
  split
  · next h => simp [h]
  · next h => simpa using h

/-- A write answers exactly when its bytes are mapped, with those bytes stored and nothing else changed (R33, R37). -/
theorem memWrite_eq_some {s t : State} {a v : Word} {n : Nat} :
    memWrite s a n v = some t ↔
      mappedRange s.plat a n = true ∧ t = { s with mem := storeBytes s.mem a n v } := by
  unfold memWrite
  split
  · next h => simp [h, eq_comm]
  · next h => simp [h]

theorem memWrite_eq_none {s : State} {a v : Word} {n : Nat} :
    memWrite s a n v = none ↔ mappedRange s.plat a n = false := by
  unfold memWrite
  split
  · next h => simp [h]
  · next h => simpa using h

/-- Both fetch paths answer alike (R42). -/
theorem fetch_eq_directRead (s : State) : fetch s = directRead s := by
  unfold fetch cacheLookup
  split <;> rfl

/-- A fetch answers exactly when the four bytes at the pc are mapped, with their little-endian word (R31, R162). -/
theorem fetch_eq_some {s : State} {iw : InstrWord} :
    fetch s = some iw ↔
      mappedRange s.plat s.pc 4 = true ∧ iw = BitVec.ofNat 32 (loadBytes s.mem s.pc 4) := by
  rw [fetch_eq_directRead]
  unfold directRead memRead
  have hw : (BitVec.ofNat 64 (loadBytes s.mem s.pc 4)).setWidth 32 = BitVec.ofNat 32 (loadBytes s.mem s.pc 4) := by
    apply BitVec.eq_of_toNat_eq
    simp only [BitVec.toNat_setWidth, BitVec.toNat_ofNat]
    omega
  split
  · next h => simp [h, hw, eq_comm]
  · next h => simp [h]

theorem fetch_eq_none {s : State} : fetch s = none ↔ mappedRange s.plat s.pc 4 = false := by
  rw [fetch_eq_directRead]
  simp [directRead, memRead_eq_none]

/-- The word of the four bytes at an address, byte by byte. -/
theorem ofNat_loadBytes_four (m : Memory) (a : Word) :
    BitVec.ofNat 32 (loadBytes m a 4) =
      wordOfBytes (Memory.get m a.toNat) (Memory.get m (a + 1).toNat) (Memory.get m (a + 2).toNat)
        (Memory.get m (a + 3).toNat) := by
  have e2 : a + 1 + 1 = a + 2 := by rw [BitVec.add_assoc]; rfl
  have e3 : a + 2 + 1 = a + 3 := by rw [BitVec.add_assoc]; rfl
  apply BitVec.eq_of_toNat_eq
  simp only [loadBytes, e2, e3, wordOfBytes, BitVec.toNat_append, BitVec.toNat_ofNat]
  generalize Memory.get m a.toNat = b0
  generalize Memory.get m (a + 1).toNat = b1
  generalize Memory.get m (a + 2).toNat = b2
  generalize Memory.get m (a + 3).toNat = b3
  have h0 := b0.isLt
  have h1 := b1.isLt
  have h2 := b2.isLt
  have h3 := b3.isLt
  rw [← Nat.shiftLeft_add_eq_or_of_lt h2, ← Nat.shiftLeft_add_eq_or_of_lt h1, ← Nat.shiftLeft_add_eq_or_of_lt h0]
  simp only [Nat.shiftLeft_eq]
  omega

/-! ## The executors' shared operations -/

/-- R110, R37: all a load can do. -/
theorem loadOp_eq (n : Nat) (extend : Word → Word) (rd rs1 : Reg) (imm : BitVec 12) (s : State) :
    loadOp n extend rd rs1 imm s =
      if mappedRange s.plat (s.effAddr rs1 imm) n = true then
        .next ((s.writeReg rd (extend (BitVec.ofNat 64 (loadBytes s.mem (s.effAddr rs1 imm) n)))).retire .load
          s.pc.next)
      else .fault (.memoryViolation .load (s.effAddr rs1 imm)) := by
  unfold loadOp memRead
  split
  · next h => simp_all
  · next h => simp_all

/-- R125, R33, R37: all a store can do. -/
theorem storeOp_eq (n : Nat) (rs2 rs1 : Reg) (imm : BitVec 12) (s : State) :
    storeOp n rs2 rs1 imm s =
      if mappedRange s.plat (s.effAddr rs1 imm) n = true then
        .next (State.retire { s with mem := storeBytes s.mem (s.effAddr rs1 imm) n (s.readReg rs2) } .store
          s.pc.next)
      else .fault (.memoryViolation .store (s.effAddr rs1 imm)) := by
  unfold storeOp memWrite
  split
  · next h => simp_all
  · next h => simp_all

/-- R135: all a branch can do. -/
theorem branchOp_eq (cond : Bool) (imm : BitVec 13) (s : State) :
    branchOp cond imm s =
      .next (s.retire (if cond then .brTaken else .brNotTaken) (if cond then s.pc + imm13 imm else s.pc.next)) := by
  cases cond <;> rfl

/-! ## What a completed instruction can be -/

/-- The two shapes of a completed instruction's next state: at most one register written, or some bytes stored; then the pc
and one category counter (R165). -/
inductive Completes (s t : State) : Prop where
  | register (rd : Reg) (v : Word) (c : Category) (npc : Word) (h : t = (s.writeReg rd v).retire c npc)
  | memory (a : Word) (n : Nat) (v npc : Word) (hn : n ≤ 8) (hmap : mappedRange s.plat a n = true)
      (h : t = State.retire { s with mem := storeBytes s.mem a n v } .store npc)

/-- Register 0 as destination writes nothing: the shape of an instruction without a destination. -/
@[simp] theorem writeReg_zero (s : State) (v : Word) : s.writeReg 0#5 v = s := rfl

theorem Completes.ofRetire (s : State) (c : Category) (npc : Word) : Completes s (s.retire c npc) :=
  .register 0#5 0 c npc rfl

theorem arithOp_next {rd : Reg} {v : Word} {s t : State} (h : arithOp rd v s = .next t) : Completes s t := by
  cases h; exact .register _ _ _ _ rfl

theorem loadOp_next {n : Nat} {e : Word → Word} {rd rs1 : Reg} {imm : BitVec 12} {s t : State}
    (h : loadOp n e rd rs1 imm s = .next t) : Completes s t := by
  rw [loadOp_eq] at h
  split at h
  · cases h; exact .register _ _ _ _ rfl
  · cases h

theorem storeOp_next {n : Nat} (hn : n ≤ 8) {rs2 rs1 : Reg} {imm : BitVec 12} {s t : State}
    (h : storeOp n rs2 rs1 imm s = .next t) : Completes s t := by
  rw [storeOp_eq] at h
  split at h
  · next hm => cases h; exact .memory _ _ _ _ hn hm rfl
  · cases h

theorem branchOp_next {cond : Bool} {imm : BitVec 13} {s t : State} (h : branchOp cond imm s = .next t) :
    Completes s t := by
  rw [branchOp_eq] at h
  cases h; exact .ofRetire _ _ _

/-- Every completed instruction has one of the two shapes. -/
theorem exec_next {i : Instr} {s t : State} (h : exec i s = .next t) : Completes s t := by
  cases i with
  | add | sub | mul | sll | srl | sra | divu | and | remu | addi | slli | srli | srai => exact arithOp_next h
  | lb | lh | lw | ld => exact loadOp_next h
  | sb | sh | sw | sd => exact storeOp_next (by decide) h
  | beq | bne | blt | bge | bltu | bgeu => exact branchOp_next h
  | jalr => cases h; exact .ofRetire _ _ _
  | jal => cases h; exact .register _ _ _ _ rfl

/-- No instruction is refused. -/
theorem exec_not_refused (i : Instr) (s : State) (r : Refusal) : exec i s ≠ .refused r := by
  cases i with
  | add | sub | mul | sll | srl | sra | divu | and | remu | addi | slli | srli | srai => nofun
  | lb | lh | lw | ld =>
    intro h
    replace h := (loadOp_eq ..).symm.trans h
    split at h <;> cases h
  | sb | sh | sw | sd =>
    intro h
    replace h := (storeOp_eq ..).symm.trans h
    split at h <;> cases h
  | beq | bne | blt | bge | bltu | bgeu => nofun
  | jalr => nofun
  | jal => nofun

/-! ## What a step can be -/

theorem terminal_iff {s : State} : s.terminal = true ↔ s.run ≠ .running := by simp [State.terminal]
theorem atSentinel_iff {s : State} : s.atSentinel = true ↔ s.pc = s.plat.sentinel := by simp [State.atSentinel]

theorem step_of_terminal {s : State} (h : s.run ≠ .running) : step s = .next s := by
  rw [step, if_pos (terminal_iff.mpr h)]

theorem step_of_sentinel {s : State} (hr : s.run = .running) (h : s.pc = s.plat.sentinel) :
    step s = .next s.stop := by
  rw [step, if_neg (by simp [State.terminal, hr]), if_pos (atSentinel_iff.mpr h)]

/-- A running step away from the sentinel is the fetch and then the dispatch. -/
theorem step_of_running {s : State} (hr : s.run = .running) (h : s.pc ≠ s.plat.sentinel) :
    step s =
      match fetch s with
      | none => .fault (.memoryViolation .fetch s.pc)
      | some iw => dispatchWord iw (s.afterFetch iw) := by
  rw [step, if_neg (by simp [State.terminal, hr])]
  exact if_neg (by simpa [State.atSentinel] using h)

theorem step_of_fetch {s : State} {iw : InstrWord} (hr : s.run = .running) (h : s.pc ≠ s.plat.sentinel)
    (hf : fetch s = some iw) : step s = dispatchWord iw (s.afterFetch iw) := by
  rw [step_of_running hr h, hf]

theorem dispatchWord_ok {iw : InstrWord} {i : Instr} (h : decodeWord iw = .ok i) (s : State) :
    dispatchWord iw s = exec i s := by
  rw [dispatchWord, h]

theorem dispatchWord_error {iw : InstrWord} {r : Unsupported} (h : decodeWord iw = .error r) (s : State) :
    dispatchWord iw s = .next (raiseUnsupported r s) := by
  rw [dispatchWord, h]

/-- The four things a step that answers a next state can have done. -/
inductive Stepped (s t : State) : Prop where
  | terminal (hr : s.run ≠ .running) (h : t = s)
  | sentinel (hr : s.run = .running) (hs : s.pc = s.plat.sentinel) (h : t = s.stop)
  | raised (hr : s.run = .running) (hs : s.pc ≠ s.plat.sentinel) (iw : InstrWord) (hf : fetch s = some iw)
      (r : Unsupported) (hd : decodeWord iw = .error r) (h : t = raiseUnsupported r (s.afterFetch iw))
  | executed (hr : s.run = .running) (hs : s.pc ≠ s.plat.sentinel) (iw : InstrWord) (hf : fetch s = some iw)
      (i : Instr) (hd : decodeWord iw = .ok i) (h : exec i (s.afterFetch iw) = .next t)

/-- The inversion of `step`. -/
theorem step_next {s t : State} (h : step s = .next t) : Stepped s t := by
  by_cases hr : s.run = .running
  · by_cases hs : s.pc = s.plat.sentinel
    · rw [step_of_sentinel hr hs] at h
      cases h; exact .sentinel hr hs rfl
    · cases hf : fetch s with
      | none =>
        rw [step_of_running hr hs, hf] at h
        cases h
      | some iw =>
        rw [step_of_fetch hr hs hf] at h
        cases hd : decodeWord iw with
        | error r =>
          rw [dispatchWord_error hd] at h
          cases h; exact .raised hr hs iw hf r hd rfl
        | ok i =>
          rw [dispatchWord_ok hd] at h
          exact .executed hr hs iw hf i hd h
  · rw [step_of_terminal hr] at h
    cases h; exact .terminal hr rfl

end Sys2Proof.Machine
end

