-- ==== Sys2Proof/Laws/PerInstr.lean ====
section
/-! SUPPORT. A statement made per instruction: the word `encode` gives an instruction has, in every field that
spec/opcode_table.json fixes for its row, the value the table gives. -/

namespace Sys2Proof.Laws.TableRow

/-- The table's "fixed" entries of an instruction's row: `(hi, lo, value)`. -/
def fixedFields : Instr → List (Nat × Nat × Nat)
  | .add _ _ _ => [(6, 0, 51), (14, 12, 0), (25, 25, 0), (30, 30, 0)]
  | .sub _ _ _ => [(6, 0, 51), (14, 12, 0), (25, 25, 0), (30, 30, 1)]
  | .mul _ _ _ => [(6, 0, 51), (14, 12, 0), (25, 25, 1), (30, 30, 0)]
  | .sll _ _ _ => [(6, 0, 51), (14, 12, 1), (25, 25, 0), (30, 30, 0)]
  | .srl _ _ _ => [(6, 0, 51), (14, 12, 5), (25, 25, 0), (30, 30, 0)]
  | .sra _ _ _ => [(6, 0, 51), (14, 12, 5), (25, 25, 0), (30, 30, 1)]
  | .divu _ _ _ => [(6, 0, 51), (14, 12, 5), (25, 25, 1), (30, 30, 0)]
  | .and _ _ _ => [(6, 0, 51), (14, 12, 7), (25, 25, 0), (30, 30, 0)]
  | .remu _ _ _ => [(6, 0, 51), (14, 12, 7), (25, 25, 1), (30, 30, 0)]
  | .addi _ _ _ => [(6, 0, 19), (14, 12, 0)]
  | .slli _ _ _ => [(6, 0, 19), (14, 12, 1), (31, 26, 0)]
  | .srli _ _ _ => [(6, 0, 19), (14, 12, 5), (31, 26, 0)]
  | .srai _ _ _ => [(6, 0, 19), (14, 12, 5), (31, 26, 16)]
  | .lb _ _ _ => [(6, 0, 3), (14, 12, 0)]
  | .lh _ _ _ => [(6, 0, 3), (14, 12, 1)]
  | .lw _ _ _ => [(6, 0, 3), (14, 12, 2)]
  | .ld _ _ _ => [(6, 0, 3), (14, 12, 3)]
  | .jalr _ _ _ => [(6, 0, 103)]
  | .sb _ _ _ => [(6, 0, 35), (14, 12, 0)]
  | .sh _ _ _ => [(6, 0, 35), (14, 12, 1)]
  | .sw _ _ _ => [(6, 0, 35), (14, 12, 2)]
  | .sd _ _ _ => [(6, 0, 35), (14, 12, 3)]
  | .beq _ _ _ => [(6, 0, 99), (14, 12, 0)]
  | .bne _ _ _ => [(6, 0, 99), (14, 12, 1)]
  | .blt _ _ _ => [(6, 0, 99), (14, 12, 4)]
  | .bge _ _ _ => [(6, 0, 99), (14, 12, 5)]
  | .bltu _ _ _ => [(6, 0, 99), (14, 12, 6)]
  | .bgeu _ _ _ => [(6, 0, 99), (14, 12, 7)]
  | .jal _ _ => [(6, 0, 111)]

/-- A word has these values in these fields. -/
def HasFields (iw : InstrWord) (fields : List (Nat × Nat × Nat)) : Prop :=
  ∀ f ∈ fields, (extractBits iw f.2.1 (f.1 + 1 - f.2.1)).toNat = f.2.2

/-- The encoded word agrees with its row of the table. -/
def Statement (i : Instr) : Prop := HasFields (encode i) (fixedFields i)

/-! ## What each format fixes -/

theorem opcode_funct3 {iw : InstrWord} {op : BitVec 7} {f3 : BitVec 3} (ho : opcodeOf iw = op)
    (h3 : funct3Of iw = f3) : HasFields iw [(6, 0, op.toNat), (14, 12, f3.toNat)] := by
  subst ho h3
  simp [HasFields, opcodeOf, funct3Of]

theorem opcode_only {iw : InstrWord} {op : BitVec 7} (ho : opcodeOf iw = op) : HasFields iw [(6, 0, op.toNat)] := by
  subst ho
  simp [HasFields, opcodeOf]

theorem shift_row (hi shamt : BitVec 6) (rs1 rd : Reg) (f3 : BitVec 3) (op : BitVec 7) :
    HasFields (encShift hi shamt rs1 f3 rd op) [(6, 0, op.toNat), (14, 12, f3.toNat), (31, 26, hi.toNat)] := by
  have ho := congrArg BitVec.toNat (opcodeOf_encShift op rs1 rd f3 hi shamt)
  have h3 := congrArg BitVec.toNat (funct3Of_encShift op rs1 rd f3 hi shamt)
  have hh := congrArg BitVec.toNat (shamtHiOf_encShift op rs1 rd f3 hi shamt)
  simp only [opcodeOf, funct3Of, shamtHiOf] at ho h3 hh
  simp [HasFields, ho, h3, hh]

theorem r_row (f7 : BitVec 7) (rs2 rs1 rd : Reg) (f3 : BitVec 3) (op : BitVec 7) :
    HasFields (encR f7 rs2 rs1 f3 rd op)
      [(6, 0, op.toNat), (14, 12, f3.toNat), (25, 25, f7.toNat % 2), (30, 30, f7.toNat / 32 % 2)] := by
  have ho := congrArg BitVec.toNat (opcodeOf_encR f7 op rs2 rs1 rd f3)
  have h3 := congrArg BitVec.toNat (funct3Of_encR f7 op rs2 rs1 rd f3)
  simp only [opcodeOf, funct3Of] at ho h3
  have := f7.isLt
  have := rs2.isLt
  have := rs1.isLt
  have := rd.isLt
  have := f3.isLt
  have := op.isLt
  simp only [HasFields, List.forall_mem_cons, List.not_mem_nil, false_implies, implies_true, and_true]
  refine ⟨ho, h3, ?_, ?_⟩ <;> simp only [extractBits_toNat, encR_toNat] <;> omega

/-! ## One lemma per instruction -/

theorem add (rd rs1 rs2 : Reg) : Statement (.add rd rs1 rs2) :=
  r_row _ _ _ _ _ _

theorem sub (rd rs1 rs2 : Reg) : Statement (.sub rd rs1 rs2) :=
  r_row _ _ _ _ _ _

theorem mul (rd rs1 rs2 : Reg) : Statement (.mul rd rs1 rs2) :=
  r_row _ _ _ _ _ _

theorem sll (rd rs1 rs2 : Reg) : Statement (.sll rd rs1 rs2) :=
  r_row _ _ _ _ _ _

theorem srl (rd rs1 rs2 : Reg) : Statement (.srl rd rs1 rs2) :=
  r_row _ _ _ _ _ _

theorem sra (rd rs1 rs2 : Reg) : Statement (.sra rd rs1 rs2) :=
  r_row _ _ _ _ _ _

theorem divu (rd rs1 rs2 : Reg) : Statement (.divu rd rs1 rs2) :=
  r_row _ _ _ _ _ _

theorem and (rd rs1 rs2 : Reg) : Statement (.and rd rs1 rs2) :=
  r_row _ _ _ _ _ _

theorem remu (rd rs1 rs2 : Reg) : Statement (.remu rd rs1 rs2) :=
  r_row _ _ _ _ _ _

theorem addi (rd rs1 : Reg) (imm : BitVec 12) : Statement (.addi rd rs1 imm) :=
  opcode_funct3 (opcodeOf_encI ..) (funct3Of_encI ..)

theorem slli (rd rs1 : Reg) (shamt : BitVec 6) : Statement (.slli rd rs1 shamt) :=
  shift_row _ _ _ _ _ _

theorem srli (rd rs1 : Reg) (shamt : BitVec 6) : Statement (.srli rd rs1 shamt) :=
  shift_row _ _ _ _ _ _

theorem srai (rd rs1 : Reg) (shamt : BitVec 6) : Statement (.srai rd rs1 shamt) :=
  shift_row _ _ _ _ _ _

theorem lb (rd rs1 : Reg) (imm : BitVec 12) : Statement (.lb rd rs1 imm) :=
  opcode_funct3 (opcodeOf_encI ..) (funct3Of_encI ..)

theorem lh (rd rs1 : Reg) (imm : BitVec 12) : Statement (.lh rd rs1 imm) :=
  opcode_funct3 (opcodeOf_encI ..) (funct3Of_encI ..)

theorem lw (rd rs1 : Reg) (imm : BitVec 12) : Statement (.lw rd rs1 imm) :=
  opcode_funct3 (opcodeOf_encI ..) (funct3Of_encI ..)

theorem ld (rd rs1 : Reg) (imm : BitVec 12) : Statement (.ld rd rs1 imm) :=
  opcode_funct3 (opcodeOf_encI ..) (funct3Of_encI ..)

theorem jalr (rd rs1 : Reg) (imm : BitVec 12) : Statement (.jalr rd rs1 imm) :=
  opcode_only (opcodeOf_encI ..)

theorem sb (rs2 rs1 : Reg) (imm : BitVec 12) : Statement (.sb rs2 rs1 imm) :=
  opcode_funct3 (opcodeOf_encS ..) (funct3Of_encS ..)

theorem sh (rs2 rs1 : Reg) (imm : BitVec 12) : Statement (.sh rs2 rs1 imm) :=
  opcode_funct3 (opcodeOf_encS ..) (funct3Of_encS ..)

theorem sw (rs2 rs1 : Reg) (imm : BitVec 12) : Statement (.sw rs2 rs1 imm) :=
  opcode_funct3 (opcodeOf_encS ..) (funct3Of_encS ..)

theorem sd (rs2 rs1 : Reg) (imm : BitVec 12) : Statement (.sd rs2 rs1 imm) :=
  opcode_funct3 (opcodeOf_encS ..) (funct3Of_encS ..)

theorem beq (rs1 rs2 : Reg) (imm : BitVec 13) : Statement (.beq rs1 rs2 imm) :=
  opcode_funct3 (opcodeOf_encB ..) (funct3Of_encB ..)

theorem bne (rs1 rs2 : Reg) (imm : BitVec 13) : Statement (.bne rs1 rs2 imm) :=
  opcode_funct3 (opcodeOf_encB ..) (funct3Of_encB ..)

theorem blt (rs1 rs2 : Reg) (imm : BitVec 13) : Statement (.blt rs1 rs2 imm) :=
  opcode_funct3 (opcodeOf_encB ..) (funct3Of_encB ..)

theorem bge (rs1 rs2 : Reg) (imm : BitVec 13) : Statement (.bge rs1 rs2 imm) :=
  opcode_funct3 (opcodeOf_encB ..) (funct3Of_encB ..)

theorem bltu (rs1 rs2 : Reg) (imm : BitVec 13) : Statement (.bltu rs1 rs2 imm) :=
  opcode_funct3 (opcodeOf_encB ..) (funct3Of_encB ..)

theorem bgeu (rs1 rs2 : Reg) (imm : BitVec 13) : Statement (.bgeu rs1 rs2 imm) :=
  opcode_funct3 (opcodeOf_encB ..) (funct3Of_encB ..)

theorem jal (rd : Reg) (imm : BitVec 21) : Statement (.jal rd imm) :=
  opcode_only (opcodeOf_encJ ..)

end Sys2Proof.Laws.TableRow
end

