-- ==== Sys2Proof/Tests/Slice0.lean ====
section
/-! SUPPORT. Tests. Expected values are those of spec/95_test_vectors.md (the section is named beside each group), words are
written out from the tables of spec/30_encoding.md; then one witness for the hypotheses of each statement. -/

namespace Sys2Proof.Tests

open Sys2Proof.Machine Sys2Proof.Says

/-! ## Helpers -/

/-- The state after reset with some registers set. -/
def start (regs : List (Reg × Word)) : State := regs.foldl (fun s p => s.writeReg p.1 p.2) State.reset

/-- One step that fetches the word. -/
def oneStep (s : State) (w : Nat) : StepResult := step (s.withFetchWord 32 w)

/-- A view of the next state. -/
def view {α : Type} (f : State → α) : StepResult → Option α
  | .next t => some (f t)
  | .fault _ => none
  | .refused _ => none

/-- The model's fault. -/
def faultOf : StepResult → Option Fault
  | .next _ => none
  | .fault f => some f
  | .refused _ => none

/-- There is a next state. -/
def goesOn (o : StepResult) : Bool := (view (fun _ => ()) o).isSome

theorem exists_next {o : StepResult} (h : goesOn o = true) : ∃ t, o = .next t := by
  cases o with
  | next t => exact ⟨t, rfl⟩
  | fault f => cases h
  | refused r => cases h

/-- Bytes at rising addresses, the first at `a`. -/
def withBytes (a : Nat) : List Byte → State → State
  | [], s => s
  | b :: bs, s => withBytes (a + 1) bs { s with mem := Memory.put s.mem a b }

/-- The state of the load vectors: 16 bytes from 0x2000 (section 5). -/
def loadStart (x6 : Word) : State :=
  withBytes 0x2000
    [0x80, 0x7F, 0xFF, 0x01, 0xEF, 0xCD, 0xAB, 0x89, 0x11, 0x22, 0x33, 0x44, 0x55, 0x66, 0x77, 0x88] (start [(6, x6)])

/-- The state of the store vectors (section 6). -/
def storeStart : State := start [(5, 0x1122334455667788), (6, 0x2000)]

/-- The bytes of the eight addresses from `a`. -/
def eightBytes (a : Word) (t : State) : List Byte := (List.range 8).map fun i => t.byteAt (a + BitVec.ofNat 64 i)

/-- A register, the pc, the total and a category counter. -/
def sees (r : Reg) (c : Counters → Word) (t : State) : Word × Word × Word × Word := (t.readReg r, t.pc, t.cnt.total, c t.cnt)

/-- What a raised exception leaves: run state, code pair, pc, a register, total, sum of the categories. -/
def seesFault (r : Reg) (t : State) : RunState × Option (Nat × Nat) × Word × Word × Word × Word :=
  (t.run, t.fault.map fun u => (u.kind.code, u.value), t.pc, t.readReg r, t.cnt.total, t.cnt.categories)

/-- The platform maps eight bytes from 0x1000 and a stack region at the top of the address space. -/
def narrowPlatform : Platform :=
  { sentinel := 0, stackBase := 0xFFFFFFFFFFFFFFF0, stackSize := 16, regions := [⟨0x1000, 8⟩] }

/-- A state on that platform. -/
def narrow (regs : List (Reg × Word)) : State := { start regs with plat := narrowPlatform }

/-! ## Well-formedness: an ill-formed term for each check -/

theorem test_wf_branch_offset_odd : branchOffsetOk 1 = false ∧ branchOffsetOk 0x1FFF = false ∧ branchOffsetOk 0x1FFE = true := by decide
theorem test_wf_jump_offset_odd : jumpOffsetOk 1 = false ∧ jumpOffsetOk 0x1FFFFF = false ∧ jumpOffsetOk 0x1FFFFE = true := by decide
theorem test_wf_refuses_beq : Instr.wf (.beq 1 2 7) = false := by decide
theorem test_wf_refuses_bne : Instr.wf (.bne 1 2 7) = false := by decide
theorem test_wf_refuses_blt : Instr.wf (.blt 1 2 7) = false := by decide
theorem test_wf_refuses_bge : Instr.wf (.bge 1 2 7) = false := by decide
theorem test_wf_refuses_bltu : Instr.wf (.bltu 1 2 7) = false := by decide
theorem test_wf_refuses_bgeu : Instr.wf (.bgeu 1 2 7) = false := by decide
theorem test_wf_refuses_jal : Instr.wf (.jal 1 7) = false := by decide

/-! ## Decoding words written out from the formats of 30_encoding.md section 1 and the map of R62 -/

theorem test_decode_add : decodeWord 0b0000000_10011_01010_000_10101_0110011 = .ok (.add 21 10 19) := by decide
theorem test_decode_sub : decodeWord 0b0100000_10011_01010_000_10101_0110011 = .ok (.sub 21 10 19) := by decide
theorem test_decode_mul : decodeWord 0b0000001_10011_01010_000_10101_0110011 = .ok (.mul 21 10 19) := by decide
theorem test_decode_sll : decodeWord 0b0000000_10011_01010_001_10101_0110011 = .ok (.sll 21 10 19) := by decide
theorem test_decode_srl : decodeWord 0b0000000_10011_01010_101_10101_0110011 = .ok (.srl 21 10 19) := by decide
theorem test_decode_sra : decodeWord 0b0100000_10011_01010_101_10101_0110011 = .ok (.sra 21 10 19) := by decide
theorem test_decode_divu : decodeWord 0b0000001_10011_01010_101_10101_0110011 = .ok (.divu 21 10 19) := by decide
theorem test_decode_and : decodeWord 0b0000000_10011_01010_111_10101_0110011 = .ok (.and 21 10 19) := by decide
theorem test_decode_remu : decodeWord 0b0000001_10011_01010_111_10101_0110011 = .ok (.remu 21 10 19) := by decide
theorem test_decode_addi : decodeWord 0b101011001110_01010_000_10101_0010011 = .ok (.addi 21 10 0xACE) := by decide
theorem test_decode_slli : decodeWord 0b000000_101011_01010_001_10101_0010011 = .ok (.slli 21 10 43) := by decide
theorem test_decode_srli : decodeWord 0b000000_101011_01010_101_10101_0010011 = .ok (.srli 21 10 43) := by decide
theorem test_decode_srai : decodeWord 0b010000_101011_01010_101_10101_0010011 = .ok (.srai 21 10 43) := by decide
theorem test_decode_lb : decodeWord 0b101011001110_01010_000_10101_0000011 = .ok (.lb 21 10 0xACE) := by decide
theorem test_decode_lh : decodeWord 0b101011001110_01010_001_10101_0000011 = .ok (.lh 21 10 0xACE) := by decide
theorem test_decode_lw : decodeWord 0b101011001110_01010_010_10101_0000011 = .ok (.lw 21 10 0xACE) := by decide
theorem test_decode_ld : decodeWord 0b101011001110_01010_011_10101_0000011 = .ok (.ld 21 10 0xACE) := by decide
theorem test_decode_jalr : decodeWord 0b101011001110_01010_000_10101_1100111 = .ok (.jalr 21 10 0xACE) := by decide
theorem test_decode_sb : decodeWord 0b1010110_10011_01010_000_01110_0100011 = .ok (.sb 19 10 0b1010110_01110) := by decide
theorem test_decode_sh : decodeWord 0b1010110_10011_01010_001_01110_0100011 = .ok (.sh 19 10 0b1010110_01110) := by decide
theorem test_decode_sw : decodeWord 0b1010110_10011_01010_010_01110_0100011 = .ok (.sw 19 10 0b1010110_01110) := by decide
theorem test_decode_sd : decodeWord 0b1010110_10011_01010_011_01110_0100011 = .ok (.sd 19 10 0b1010110_01110) := by decide
theorem test_decode_beq : decodeWord 0b1_010110_10011_01010_000_0111_0_1100011 = .ok (.beq 10 19 0b1_0_010110_0111_0) := by decide
theorem test_decode_bne : decodeWord 0b1_010110_10011_01010_001_0111_0_1100011 = .ok (.bne 10 19 0b1_0_010110_0111_0) := by decide
theorem test_decode_blt : decodeWord 0b1_010110_10011_01010_100_0111_0_1100011 = .ok (.blt 10 19 0b1_0_010110_0111_0) := by decide
theorem test_decode_bge : decodeWord 0b1_010110_10011_01010_101_0111_0_1100011 = .ok (.bge 10 19 0b1_0_010110_0111_0) := by decide
theorem test_decode_bltu : decodeWord 0b1_010110_10011_01010_110_0111_0_1100011 = .ok (.bltu 10 19 0b1_0_010110_0111_0) := by decide
theorem test_decode_bgeu : decodeWord 0b1_010110_10011_01010_111_0111_0_1100011 = .ok (.bgeu 10 19 0b1_0_010110_0111_0) := by decide
theorem test_decode_branch_bit_11 : decodeWord 0b0_000000_00000_00000_000_0000_1_1100011 = .ok (.beq 0 0 2048) := by decide
theorem test_decode_jal : decodeWord 0b1_0110011101_0_10110010_10101_1101111 = .ok (.jal 21 0b1_10110010_0_0110011101_0) := by decide
theorem test_decode_jump_bit_11 : decodeWord 0b0_0000000000_1_00000000_00000_1101111 = .ok (.jal 0 2048) := by decide

/-- Section 2: the words the spec writes out, with their signed immediates. -/
theorem test_decode_section_2 :
    decodeWord 0xFFF00013 = .ok (.addi 0 0 (-1)) ∧ decodeWord 0x80000013 = .ok (.addi 0 0 (-2048)) ∧
      decodeWord 0x7E000FA3 = .ok (.sb 0 0 2047) ∧ decodeWord 0x80000023 = .ok (.sb 0 0 (-2048)) ∧
      decodeWord 0x80000063 = .ok (.beq 0 0 (-4096)) ∧ decodeWord 0x7E000FE3 = .ok (.beq 0 0 4094) ∧
      decodeWord 0x800000EF = .ok (.jal 1 (-1048576)) ∧ decodeWord 0x7FFFF0EF = .ok (.jal 1 1048574) := by decide

/-- Section 2 read the other way: the encoder gives the spec's words. -/
theorem test_encode_section_2 :
    encode (.addi 1 0 5) = 0x00500093 ∧ encode (.sw 5 2 (-4)) = 0xFE512E23 ∧ encode (.blt 5 6 (-8)) = 0xFE62CCE3 ∧
      encode (.jal 0 (-16)) = 0xFF1FF06F ∧ encode (.srai 3 1 63) = 0x43F0D193 ∧ encode (.remu 3 1 2) = 0x0220F1B3 := by
  decide

/-- Section 3: bits of funct7 and of a JALR word that are not looked at (D10, D28). -/
theorem test_decode_unexamined_bits :
    decodeWord 0xB82081B3 = .ok (.add 3 1 2) ∧ decodeWord 0xF82081B3 = .ok (.sub 3 1 2) ∧
      decodeWord 0xFC2081B3 = .ok (.sub 3 1 2) ∧ decodeWord 0x0102F3E7 = .ok (.jalr 7 5 16) := by decide

theorem test_decode_little_endian :
    decode [0x93, 0x00, 0x50, 0x00, 0x7F] = .ok (.addi 1 0 5, [0x7F]) ∧ encodeBytes (.addi 1 0 5) = [0x93, 0x00, 0x50, 0x00] := by
  decide
theorem test_decode_truncated : decode [0x93, 0x00, 0x50] = .error .truncated := by decide
theorem test_decodeTableWord :
    decodeTableWord 32 0x40000033 = some (.sub 0 0 0) ∧ decodeTableWord 32 0x00000073 = none := by decide

/-! ## Sign extension (section 1.2) and fields (R7's examples) -/

theorem test_sext :
    sext 12 0x800 = 0xFFFFFFFFFFFFF800 ∧ sext 12 0x7FF = 0x7FF ∧ sext 13 0x1000 = 0xFFFFFFFFFFFFF000 ∧
      sext 8 0x80 = 0xFFFFFFFFFFFFFF80 ∧ sext 32 0x80000000 = 0xFFFFFFFF80000000 ∧ sext 1 1 = 0xFFFFFFFFFFFFFFFF ∧
      sext 64 0x8000000000000000 = 0x8000000000000000 := by decide
theorem test_extractBits :
    extractBits 0xFE62CCE3 0 7 = 0x63 ∧ extractBits 0xFE62CCE3 7 5 = 0x19 ∧ extractBits 0xFE62CCE3 12 3 = 4 ∧
      extractBits 0xFE62CCE3 20 5 = 6 ∧ extractBits 0xFE62CCE3 25 7 = 0x7F ∧ extractBits 0xFE62CCE3 31 1 = 1 := by decide

/-! ## R-type (section 3): x1, x2 before; x3, pc, cnt.total, cnt.arith after -/

theorem test_add_wraps :
    view (sees 3 (·.arith)) (oneStep (start [(1, 0xFFFFFFFFFFFFFFFF), (2, 0x1)]) 0x002081b3) = some (0x0, 0x1004, 1, 1) := by decide
theorem test_add_signed_overflow :
    view (sees 3 (·.arith)) (oneStep (start [(1, 0x7FFFFFFFFFFFFFFF), (2, 0x1)]) 0x002081b3) = some (0x8000000000000000, 0x1004, 1, 1) := by decide
theorem test_sub_order :
    view (sees 3 (·.arith)) (oneStep (start [(1, 0x5), (2, 0x7)]) 0x402081b3) = some (0xFFFFFFFFFFFFFFFE, 0x1004, 1, 1) := by decide
theorem test_sub_signed_overflow :
    view (sees 3 (·.arith)) (oneStep (start [(1, 0x8000000000000000), (2, 0x1)]) 0x402081b3) = some (0x7FFFFFFFFFFFFFFF, 0x1004, 1, 1) := by decide
theorem test_mul_low_half :
    view (sees 3 (·.arith)) (oneStep (start [(1, 0xFFFFFFFFFFFFFFFF), (2, 0xFFFFFFFFFFFFFFFF)]) 0x022081b3) = some (0x1, 0x1004, 1, 1) := by decide
theorem test_mul_by_sixteen :
    view (sees 3 (·.arith)) (oneStep (start [(1, 0x123456789ABCDEF0), (2, 0x10)]) 0x022081b3) = some (0x23456789ABCDEF00, 0x1004, 1, 1) := by decide
theorem test_sll_amount_63 :
    view (sees 3 (·.arith)) (oneStep (start [(1, 0x1), (2, 0x3F)]) 0x002091b3) = some (0x8000000000000000, 0x1004, 1, 1) := by decide
theorem test_sll_amount_65 :
    view (sees 3 (·.arith)) (oneStep (start [(1, 0xFFFFFFFFFFFFFFFF), (2, 0x41)]) 0x002091b3) = some (0xFFFFFFFFFFFFFFFE, 0x1004, 1, 1) := by decide
theorem test_srl_zero_fill :
    view (sees 3 (·.arith)) (oneStep (start [(1, 0xFFFFFFFFFFFFFFF0), (2, 0x4)]) 0x0020d1b3) = some (0xFFFFFFFFFFFFFFF, 0x1004, 1, 1) := by decide
theorem test_srl_amount_127 :
    view (sees 3 (·.arith)) (oneStep (start [(1, 0xFFFFFFFFFFFFFFFF), (2, 0x7F)]) 0x0020d1b3) = some (0x1, 0x1004, 1, 1) := by decide
theorem test_sra_sign_fill :
    view (sees 3 (·.arith)) (oneStep (start [(1, 0x8000000000000000), (2, 0x3F)]) 0x4020d1b3) = some (0xFFFFFFFFFFFFFFFF, 0x1004, 1, 1) := by decide
theorem test_sra_amount_64 :
    view (sees 3 (·.arith)) (oneStep (start [(1, 0x8000000000000000), (2, 0x40)]) 0x4020d1b3) = some (0x8000000000000000, 0x1004, 1, 1) := by decide
theorem test_divu_unsigned :
    view (sees 3 (·.arith)) (oneStep (start [(1, 0xFFFFFFFFFFFFFFFE), (2, 0x2)]) 0x0220d1b3) = some (0x7FFFFFFFFFFFFFFF, 0x1004, 1, 1) := by decide
theorem test_divu_by_zero :
    view (sees 3 (·.arith)) (oneStep (start [(1, 0x9), (2, 0x0)]) 0x0220d1b3) = some (0xFFFFFFFFFFFFFFFF, 0x1004, 1, 1) := by decide
theorem test_and_bits :
    view (sees 3 (·.arith)) (oneStep (start [(1, 0xFF0F), (2, 0xFF0)]) 0x0020f1b3) = some (0xF00, 0x1004, 1, 1) := by decide
theorem test_and_alternating :
    view (sees 3 (·.arith)) (oneStep (start [(1, 0xAAAAAAAAAAAAAAAA), (2, 0x5555555555555555)]) 0x0020f1b3) = some (0x0, 0x1004, 1, 1) := by decide
theorem test_remu_unsigned :
    view (sees 3 (·.arith)) (oneStep (start [(1, 0x8000000000000000), (2, 0xFFFFFFFFFFFFFFFF)]) 0x0220f1b3) = some (0x8000000000000000, 0x1004, 1, 1) := by decide
theorem test_remu_by_zero :
    view (sees 3 (·.arith)) (oneStep (start [(1, 0x9), (2, 0x0)]) 0x0220f1b3) = some (0x9, 0x1004, 1, 1) := by decide
theorem test_source_is_destination :
    view (sees 5 (·.arith)) (oneStep (start [(5, 0x15)]) 0x005282B3) = some (0x2A, 0x1004, 1, 1) := by decide
theorem test_register_zero_discards :
    view (sees 0 (·.arith)) (oneStep (start [(1, 3), (2, 4)]) 0x00208033) = some (0, 0x1004, 1, 1) := by decide

/-! ## I-arithmetic (section 4): x1 before -/

theorem test_addi_minus_one :
    view (sees 3 (·.arith)) (oneStep (start [(1, 0x0)]) 0xfff08193) = some (0xFFFFFFFFFFFFFFFF, 0x1004, 1, 1) := by decide
theorem test_addi_max_overflows :
    view (sees 3 (·.arith)) (oneStep (start [(1, 0x7FFFFFFFFFFFFFFF)]) 0x7ff08193) = some (0x80000000000007FE, 0x1004, 1, 1) := by decide
theorem test_slli_by_63 :
    view (sees 3 (·.arith)) (oneStep (start [(1, 0x1)]) 0x03f09193) = some (0x8000000000000000, 0x1004, 1, 1) := by decide
theorem test_slli_by_32 :
    view (sees 3 (·.arith)) (oneStep (start [(1, 0xFFFFFFFF)]) 0x02009193) = some (0xFFFFFFFF00000000, 0x1004, 1, 1) := by decide
theorem test_srli_by_4 :
    view (sees 3 (·.arith)) (oneStep (start [(1, 0xFFFFFFFFFFFFFFF0)]) 0x0040d193) = some (0xFFFFFFFFFFFFFFF, 0x1004, 1, 1) := by decide
theorem test_srli_by_32 :
    view (sees 3 (·.arith)) (oneStep (start [(1, 0xFFFFFFFF00000000)]) 0x0200d193) = some (0xFFFFFFFF, 0x1004, 1, 1) := by decide
theorem test_srai_by_32 :
    view (sees 3 (·.arith)) (oneStep (start [(1, 0x8000000000000000)]) 0x4200d193) = some (0xFFFFFFFF80000000, 0x1004, 1, 1) := by decide
theorem test_srai_positive :
    view (sees 3 (·.arith)) (oneStep (start [(1, 0x7FFFFFFFFFFFFFFF)]) 0x4010d193) = some (0x3FFFFFFFFFFFFFFF, 0x1004, 1, 1) := by decide

/-! ## Loads (section 5): x6 before; x5, pc, cnt.total, cnt.load after -/

theorem test_lb_sign :
    view (sees 5 (·.load)) (oneStep (loadStart 0x2000) 0x00030283) = some (0xFFFFFFFFFFFFFF80, 0x1004, 1, 1) := by decide
theorem test_lb_back :
    view (sees 5 (·.load)) (oneStep (loadStart 0x2004) 0xfff30283) = some (0x1, 0x1004, 1, 1) := by decide
theorem test_lh_order :
    view (sees 5 (·.load)) (oneStep (loadStart 0x2000) 0x00031283) = some (0x7F80, 0x1004, 1, 1) := by decide
theorem test_lh_misaligned_sign :
    view (sees 5 (·.load)) (oneStep (loadStart 0x2000) 0x00131283) = some (0xFFFFFFFFFFFFFF7F, 0x1004, 1, 1) := by decide
theorem test_lw_sign :
    view (sees 5 (·.load)) (oneStep (loadStart 0x2000) 0x00432283) = some (0xFFFFFFFF89ABCDEF, 0x1004, 1, 1) := by decide
theorem test_lw_misaligned :
    view (sees 5 (·.load)) (oneStep (loadStart 0x2000) 0x00132283) = some (0xFFFFFFFFEF01FF7F, 0x1004, 1, 1) := by decide
theorem test_ld_misaligned :
    view (sees 5 (·.load)) (oneStep (loadStart 0x2000) 0x00333283) = some (0x33221189ABCDEF01, 0x1004, 1, 1) := by decide
theorem test_ld_base_is_destination :
    view (sees 6 (·.load)) (oneStep (loadStart 0x2008) 0x00033303) = some (0x8877665544332211, 0x1004, 1, 1) := by decide

/-! ## Stores (section 6): eight bytes from an address after, then pc and cnt.store -/

/-- The bytes of the eight addresses from `a`, the pc, the store counter. -/
def seesStore (a : Word) (t : State) : List Byte × Word × Word := (eightBytes a t, t.pc, t.cnt.store)

theorem test_sb_low_byte :
    view (seesStore 0x2000) (oneStep storeStart 0x00530023) = some ([0x88, 0x00, 0x00, 0x00, 0x00, 0x00, 0x00, 0x00], 0x1004, 1) := by decide
theorem test_sh_offset :
    view (seesStore 0x2000) (oneStep storeStart 0x00531123) = some ([0x00, 0x00, 0x88, 0x77, 0x00, 0x00, 0x00, 0x00], 0x1004, 1) := by decide
theorem test_sh_misaligned :
    view (seesStore 0x2000) (oneStep storeStart 0x005310a3) = some ([0x00, 0x88, 0x77, 0x00, 0x00, 0x00, 0x00, 0x00], 0x1004, 1) := by decide
theorem test_sw_back :
    view (seesStore 0x1FFC) (oneStep storeStart 0xfe532e23) = some ([0x88, 0x77, 0x66, 0x55, 0x00, 0x00, 0x00, 0x00], 0x1004, 1) := by decide
theorem test_sw_forward :
    view (seesStore 0x2000) (oneStep storeStart 0x00532223) = some ([0x00, 0x00, 0x00, 0x00, 0x88, 0x77, 0x66, 0x55], 0x1004, 1) := by decide
theorem test_sd_all :
    view (seesStore 0x2008) (oneStep storeStart 0x00533423) = some ([0x88, 0x77, 0x66, 0x55, 0x44, 0x33, 0x22, 0x11], 0x1004, 1) := by decide
theorem test_sd_base_is_source :
    view (seesStore 0x2000) (oneStep storeStart 0x00633023) = some ([0x00, 0x20, 0x00, 0x00, 0x00, 0x00, 0x00, 0x00], 0x1004, 1) := by decide

/-- R35: a store of eight bytes four below the top of the address space wraps to address 0. -/
theorem test_sd_wraps :
    view (fun t => (eightBytes 0xFFFFFFFFFFFFFFFC t, t.byteAt 0)) (oneStep (start [(5, 0x1122334455667788), (6, 0xFFFFFFFFFFFFFFFC)])
      0x00533023) = some ([0x88, 0x77, 0x66, 0x55, 0x44, 0x33, 0x22, 0x11], 0x44) := by decide

/-- Writing what an unlisted byte reads as removes the entry: equal memories are equal data (log 5). -/
theorem test_memory_canonical :
    Memory.put (Memory.put (Memory.put [] 5 7) 3 9) 5 0 = [(3, 9)] ∧
      Memory.wf (Memory.put (Memory.put [] 5 7) 3 9) = true ∧ Memory.wf [(5, 7), (3, 9)] = false ∧
      Memory.wf [(3, 0)] = false := by decide

/-! ## Branches (section 7): x5, x6 before, +16; pc, br_taken, br_not_taken after -/

/-- The pc and the two branch counters. -/
def seesBranch (t : State) : Word × Word × Word := (t.pc, t.cnt.brTaken, t.cnt.brNotTaken)

theorem test_beq_taken :
    view seesBranch (oneStep (start [(5, 0x5), (6, 0x5)]) 0x00628863) = some (0x1010, 1, 0) := by decide
theorem test_beq_not_taken :
    view seesBranch (oneStep (start [(5, 0x5), (6, 0x7)]) 0x00628863) = some (0x1004, 0, 1) := by decide
theorem test_bne_not_taken :
    view seesBranch (oneStep (start [(5, 0x5), (6, 0x5)]) 0x00629863) = some (0x1004, 0, 1) := by decide
theorem test_bne_taken :
    view seesBranch (oneStep (start [(5, 0x5), (6, 0x7)]) 0x00629863) = some (0x1010, 1, 0) := by decide
theorem test_blt_taken :
    view seesBranch (oneStep (start [(5, 0xFFFFFFFFFFFFFFFF), (6, 0x1)]) 0x0062c863) = some (0x1010, 1, 0) := by decide
theorem test_blt_not_taken :
    view seesBranch (oneStep (start [(5, 0x1), (6, 0xFFFFFFFFFFFFFFFF)]) 0x0062c863) = some (0x1004, 0, 1) := by decide
theorem test_bge_not_taken :
    view seesBranch (oneStep (start [(5, 0x8000000000000000), (6, 0x7FFFFFFFFFFFFFFF)]) 0x0062d863) = some (0x1004, 0, 1) := by decide
theorem test_bge_taken :
    view seesBranch (oneStep (start [(5, 0x5), (6, 0x5)]) 0x0062d863) = some (0x1010, 1, 0) := by decide
theorem test_bltu_not_taken :
    view seesBranch (oneStep (start [(5, 0xFFFFFFFFFFFFFFFF), (6, 0x1)]) 0x0062e863) = some (0x1004, 0, 1) := by decide
theorem test_bltu_taken :
    view seesBranch (oneStep (start [(5, 0x1), (6, 0xFFFFFFFFFFFFFFFF)]) 0x0062e863) = some (0x1010, 1, 0) := by decide
theorem test_bgeu_taken :
    view seesBranch (oneStep (start [(5, 0x8000000000000000), (6, 0x7FFFFFFFFFFFFFFF)]) 0x0062f863) = some (0x1010, 1, 0) := by decide
theorem test_bgeu_not_taken :
    view seesBranch (oneStep (start [(5, 0x5), (6, 0x7)]) 0x0062f863) = some (0x1004, 0, 1) := by decide
theorem test_branch_backward :
    view seesBranch (oneStep { start [] with pc := 0x4000 } 0xFE000CE3) = some (0x3FF8, 1, 0) := by decide
theorem test_branch_most_negative :
    view seesBranch (oneStep { start [(5, 1)] with pc := 0x4000 } 0x80029063) = some (0x3000, 1, 0) := by decide

/-! ## Jumps (section 8): SENTINEL 0xDEAD0000 -/

/-- The state of the jump vectors. -/
def jumpStart (regs : List (Reg × Word)) : State :=
  { start ((1, 0xDEAD0000) :: regs) with plat := { Config.resetPlatform with sentinel := 0xDEAD0000 } }

theorem test_jal_links :
    view (sees 1 (·.jump)) (oneStep (jumpStart []) 0x008000EF) = some (0x1004, 0x1008, 1, 1) := by decide
theorem test_jal_zero_does_not_link :
    view (sees 1 (·.jump)) (oneStep (jumpStart []) 0xFF1FF06F) = some (0xDEAD0000, 0x0FF0, 1, 1) := by decide
theorem test_jalr_does_not_link :
    view (sees 1 (·.jump)) (oneStep (jumpStart [(1, 0x1111), (5, 0x3000)]) 0x000280E7) = some (0x1111, 0x3000, 1, 1) := by
  decide
theorem test_jalr_keeps_bit_zero :
    view (sees 7 (·.jump)) (oneStep (jumpStart [(5, 0x3000), (7, 0x77)]) 0x00128067) = some (0x77, 0x3001, 1, 1) := by decide

/-! ## The exception (sections 3, 4, 5, 6, 7, 9) -/

theorem test_raise_opcode :
    view (seesFault 2) (oneStep (start []) 0x00000073) = some (.faulted, some (0, 115), 0x1000, 0x7FFF2000, 1, 0) ∧
      view (seesFault 2) (oneStep (start []) 0xFFFFFFFF) = some (.faulted, some (0, 127), 0x1000, 0x7FFF2000, 1, 0) :=
  ⟨by decide, by decide⟩
theorem test_raise_funct3_r :
    view (seesFault 10) (oneStep (start [(10, 7)]) 0x00A54533) = some (.faulted, some (1, 4), 0x1000, 7, 1, 0) := by decide
theorem test_raise_shamt_hi :
    view (seesFault 3) (oneStep (start [(3, 9)]) 0x04409193) = some (.faulted, some (3, 1), 0x1000, 9, 1, 0) ∧
      view (seesFault 3) (oneStep (start [(3, 9)]) 0xC040D193) = some (.faulted, some (3, 48), 0x1000, 9, 1, 0) :=
  ⟨by decide, by decide⟩
theorem test_raise_load_store_branch :
    decodeWord 0x00034283 = .error (.funct3 4) ∧ decodeWord 0x00537023 = .error (.funct3 7) ∧
      decodeWord 0x0062B863 = .error (.funct3 3) := by decide

/-! ## The sentinel, the end of the run, unmapped accesses (section 9, R37) -/

theorem test_sentinel_stops_without_a_fetch :
    view (fun t => (t.run, t.pc, t.cnt.total, t.result)) (step { narrow [(10, 0x2A)] with pc := 0 }) =
      some (.stopped, 0, 0, some 0x2A) := by decide
theorem test_return_then_stop :
    view (fun t => (t.run, t.pc, t.cnt.total, t.cnt.jump, t.result))
        (Host.Core.run Sys2Proof.core 3 ((start [(10, 0x2A)]).withFetchWord 32 0x00008067)) =
      some (.stopped, 0, 1, 1, some 0x2A) := by decide
theorem test_faulted_has_no_result :
    view (fun t => (t.status.result, t.status.fault)) (oneStep (start []) 0x00000073) = some (none, some (.opcode 0x73)) := by
  decide
theorem test_load_unmapped :
    faultOf (oneStep (narrow [(6, 0x1FFF)]) 0x00033283) = some (.memoryViolation .load 0x1FFF) := by decide
theorem test_store_half_mapped :
    faultOf (oneStep (narrow [(6, 0x1004)]) 0x00533023) = some (.memoryViolation .store 0x1004) := by decide
theorem test_fetch_unmapped : faultOf (step { narrow [] with pc := 0x1006 }) = some (.memoryViolation .fetch 0x1006) := by
  decide
theorem test_stack_is_always_mapped :
    mappedRange narrowPlatform 0xFFFFFFFFFFFFFFF0 16 = true ∧ mapped narrowPlatform 0 = false := by decide
theorem test_placing_moves_what_the_fetch_needs :
    view (sees 1 (·.arith)) (oneStep { narrow [] with pc := 0, run := .stopped } 0x00500093) = some (5, 4, 1, 1) := by decide

/-- With the cache on, the fetched word is the same; what the lookup leaves in the cache is not looked at. -/
theorem test_cached_fetch :
    view (sees 1 (·.arith)) (oneStep { start [] with cacheEn := true } 0x00500093) = some (5, 0x1004, 1, 1) := by decide

theorem test_reset_registers :
    State.reset.readReg 1 = 0 ∧ State.reset.readReg 2 = 0x7FFF2000 ∧ State.reset.pc = 0x1000 ∧ State.reset.run = .running := by
  decide

/-! ## Witnesses: states and operands that meet the hypotheses of the statements, clause by clause -/

theorem witness_DecodingAnEncodedInstructionGivesItBack :
    Instr.wf (.jal 31 0x1FFFFE) = true ∧ Instr.wf (.bgeu 31 0 0x1000) = true ∧ Instr.wf (.add 0 0 0) = true := by decide

theorem witness_EncodingADecodedWordGivesItsExaminedBits :
    (decodeWord 0xFC2081B3 = .ok (.sub 3 1 2) ∧ field 0xFC2081B3 0 7 = 0x33) ∧
      (decodeWord 0x0102F3E7 = .ok (.jalr 7 5 16) ∧ field 0x0102F3E7 0 7 = 0x67) ∧
      decodeWord 0x00000013 = .ok (.addi 0 0 0) := by decide

theorem witness_SignExtensionLaws :
    (1 ≤ 1 ∧ 1 ≤ 64 ∧ (0 : Word).toNat < 2 ^ (1 - 1)) ∧ (1 ≤ 64 ∧ 64 ≤ 64 ∧ (0x7FFFFFFFFFFFFFFF : Word).toNat < 2 ^ (64 - 1)) := by
  decide

/-- One word for each row of R181, at a boundary of the row's values. -/
theorem witness_WordsOutsideTheTableRaiseTheirCause :
    Raises 0xFFFFFFFF .opcode 127 ∧ Raises 0x00006033 .funct3 6 ∧ Raises 0x42000033 .funct7 0x21 ∧ Raises 0x40001033 .funct7 0x20 ∧
      Raises 0x02001033 .funct7 1 ∧ Raises 0x40007033 .funct7 0x20 ∧ Raises 0x42005033 .funct7 0x21 ∧
      Raises 0x00007013 .funct3 7 ∧ Raises 0x04001013 .shamtHi 1 ∧ Raises 0xFC005013 .shamtHi 63 ∧ Raises 0x00004003 .funct3 4 ∧
      Raises 0x00007023 .funct3 7 ∧ Raises 0x00003063 .funct3 3 := by
  refine ⟨?_, ?_, ?_, ?_, ?_, ?_, ?_, ?_, ?_, ?_, ?_, ?_, ?_⟩ <;> unfold Raises SupportedPair <;> decide

theorem witness_WordsOutsideTheTable_jumps : field 0x0000F067 0 7 = 0x67 ∧ field 0xFFFFF06F 0 7 = 0x6F := by decide

theorem witness_AddWritesTheSumModulo64Bits :
    field 0x002081b3 0 7 = 0x33 ∧ field 0x002081b3 12 3 = 0x0 ∧ field 0x002081b3 30 1 = 0x0 ∧ field 0x002081b3 25 1 = 0x0 := by decide
theorem witness_SubWritesTheDifferenceModulo64Bits :
    field 0x402081b3 0 7 = 0x33 ∧ field 0x402081b3 12 3 = 0x0 ∧ field 0x402081b3 30 1 = 0x1 ∧ field 0x402081b3 25 1 = 0x0 := by decide
theorem witness_MulWritesTheLow64BitsOfTheProduct :
    field 0x022081b3 0 7 = 0x33 ∧ field 0x022081b3 12 3 = 0x0 ∧ field 0x022081b3 30 1 = 0x0 ∧ field 0x022081b3 25 1 = 0x1 := by decide
theorem witness_SllShiftsByTheLowSixBits :
    field 0x002091b3 0 7 = 0x33 ∧ field 0x002091b3 12 3 = 0x1 ∧ field 0x002091b3 30 1 = 0x0 ∧ field 0x002091b3 25 1 = 0x0 := by decide
theorem witness_SrlShiftsInZeros :
    field 0x0020d1b3 0 7 = 0x33 ∧ field 0x0020d1b3 12 3 = 0x5 ∧ field 0x0020d1b3 30 1 = 0x0 ∧ field 0x0020d1b3 25 1 = 0x0 := by decide
theorem witness_SraShiftsInTheSign :
    field 0x4020d1b3 0 7 = 0x33 ∧ field 0x4020d1b3 12 3 = 0x5 ∧ field 0x4020d1b3 30 1 = 0x1 ∧ field 0x4020d1b3 25 1 = 0x0 := by decide
theorem witness_DivuDividesUnsignedAndByZeroGivesAllOnes :
    field 0x0220d1b3 0 7 = 0x33 ∧ field 0x0220d1b3 12 3 = 0x5 ∧ field 0x0220d1b3 30 1 = 0x0 ∧ field 0x0220d1b3 25 1 = 0x1 := by decide
theorem witness_AndIsBitwise :
    field 0x0020f1b3 0 7 = 0x33 ∧ field 0x0020f1b3 12 3 = 0x7 ∧ field 0x0020f1b3 30 1 = 0x0 ∧ field 0x0020f1b3 25 1 = 0x0 := by decide
theorem witness_RemuGivesTheUnsignedRemainderAndByZeroTheDividend :
    field 0x0220f1b3 0 7 = 0x33 ∧ field 0x0220f1b3 12 3 = 0x7 ∧ field 0x0220f1b3 30 1 = 0x0 ∧ field 0x0220f1b3 25 1 = 0x1 := by decide
theorem witness_QuotientAndRemainderRebuildTheDividend :
    ∃ t u, (31 : Reg) ≠ 0 ∧ (1 : Reg) ≠ 0 ∧ (start [(2, 7)]).readReg 2 ≠ 0 ∧
      exec (.divu 31 1 2) (start [(2, 7)]) = .next t ∧ exec (.remu 1 1 2) (start [(2, 7)]) = .next u :=
  ⟨_, _, by decide, by decide, by decide, rfl, rfl⟩
theorem witness_AddiAddsTheSignExtendedImmediate :
    field 0xfff08193 0 7 = 0x13 ∧ field 0xfff08193 12 3 = 0x0 := by decide
theorem witness_SlliShiftsLeftByItsAmount :
    field 0x03f09193 0 7 = 0x13 ∧ field 0x03f09193 12 3 = 0x1 ∧ field 0x03f09193 26 6 = 0x0 := by decide
theorem witness_SrliShiftsRightWithZeros :
    field 0x03f0d193 0 7 = 0x13 ∧ field 0x03f0d193 12 3 = 0x5 ∧ field 0x03f0d193 26 6 = 0x0 := by decide
theorem witness_SraiShiftsRightWithTheSign :
    field 0x43f0d193 0 7 = 0x13 ∧ field 0x43f0d193 12 3 = 0x5 ∧ field 0x43f0d193 26 6 = 0x10 := by decide

/-- The accesses of the load and store witnesses are mapped, the last one wrapping at the top of the address space. -/
theorem mapped_at_reset : ∀ n ∈ [1, 2, 4, 8], AllMapped State.reset.plat (State.reset.effAddr 0 (-1)) n := by
  unfold AllMapped
  decide

theorem witness_LbLoadsOneByteSignExtended :
    (field 0x00030283 0 7 = 0x03 ∧ field 0x00030283 12 3 = 0) ∧ AllMapped State.reset.plat (State.reset.effAddr 0 (-1)) 1 :=
  ⟨by decide, mapped_at_reset 1 (by decide)⟩
theorem witness_LhLoadsTwoBytesSignExtended :
    (field 0x00031283 0 7 = 0x03 ∧ field 0x00031283 12 3 = 1) ∧ AllMapped State.reset.plat (State.reset.effAddr 0 (-1)) 2 :=
  ⟨by decide, mapped_at_reset 2 (by decide)⟩
theorem witness_LwLoadsFourBytesSignExtended :
    (field 0x00032283 0 7 = 0x03 ∧ field 0x00032283 12 3 = 2) ∧ AllMapped State.reset.plat (State.reset.effAddr 0 (-1)) 4 :=
  ⟨by decide, mapped_at_reset 4 (by decide)⟩
theorem witness_LdLoadsEightBytes :
    (field 0x00033283 0 7 = 0x03 ∧ field 0x00033283 12 3 = 3) ∧ AllMapped State.reset.plat (State.reset.effAddr 0 (-1)) 8 :=
  ⟨by decide, mapped_at_reset 8 (by decide)⟩
theorem witness_SbStoresTheLowByte :
    (field 0x00530023 0 7 = 0x23 ∧ field 0x00530023 12 3 = 0) ∧ Memory.wf State.reset.mem = true ∧
      AllMapped State.reset.plat (State.reset.effAddr 0 (-1)) 1 :=
  ⟨by decide, by decide, mapped_at_reset 1 (by decide)⟩
theorem witness_ShStoresTheLowTwoBytes :
    (field 0x00531123 0 7 = 0x23 ∧ field 0x00531123 12 3 = 1) ∧ Memory.wf State.reset.mem = true ∧
      AllMapped State.reset.plat (State.reset.effAddr 0 (-1)) 2 :=
  ⟨by decide, by decide, mapped_at_reset 2 (by decide)⟩
theorem witness_SwStoresTheLowFourBytes :
    (field 0x00532223 0 7 = 0x23 ∧ field 0x00532223 12 3 = 2) ∧ Memory.wf State.reset.mem = true ∧
      AllMapped State.reset.plat (State.reset.effAddr 0 (-1)) 4 :=
  ⟨by decide, by decide, mapped_at_reset 4 (by decide)⟩
theorem witness_SdStoresEightBytes :
    (field 0x00533423 0 7 = 0x23 ∧ field 0x00533423 12 3 = 3) ∧ Memory.wf State.reset.mem = true ∧
      AllMapped State.reset.plat (State.reset.effAddr 0 (-1)) 8 :=
  ⟨by decide, by decide, mapped_at_reset 8 (by decide)⟩

/-- The two register values of the branch witnesses. -/
def pair (x y : Word) : State := start [(5, x), (6, y)]

theorem witness_BeqBranchesOnEqual :
    (field 0x00628863 0 7 = 0x63 ∧ field 0x00628863 12 3 = 0) ∧ (∀ i, i < 64 → ((pair 5 5).readReg 5).getLsbD i = ((pair 5 5).readReg 6).getLsbD i) ∧
      ¬(∀ i, i < 64 → ((pair 5 7).readReg 5).getLsbD i = ((pair 5 7).readReg 6).getLsbD i) := by decide
theorem witness_BneBranchesOnNotEqual :
    (field 0x00629863 0 7 = 0x63 ∧ field 0x00629863 12 3 = 1) ∧ ((pair 5 7).readReg 5 ≠ (pair 5 7).readReg 6) ∧
      ¬((pair 5 5).readReg 5 ≠ (pair 5 5).readReg 6) := by decide
theorem witness_BltBranchesOnSignedLess :
    (field 0x0062c863 0 7 = 0x63 ∧ field 0x0062c863 12 3 = 4) ∧ (s64 ((pair (-1) 0).readReg 5) < s64 ((pair (-1) 0).readReg 6)) ∧
      ¬(s64 ((pair 0 0).readReg 5) < s64 ((pair 0 0).readReg 6)) := by decide
theorem witness_BgeBranchesOnSignedGreaterOrEqual :
    (field 0x0062d863 0 7 = 0x63 ∧ field 0x0062d863 12 3 = 5) ∧ (s64 ((pair 0 0).readReg 5) ≥ s64 ((pair 0 0).readReg 6)) ∧
      ¬(s64 ((pair (-1) 0).readReg 5) ≥ s64 ((pair (-1) 0).readReg 6)) := by decide
theorem witness_BltuBranchesOnUnsignedLess :
    (field 0x0062e863 0 7 = 0x63 ∧ field 0x0062e863 12 3 = 6) ∧ (u64 ((pair 0 (-1)).readReg 5) < u64 ((pair 0 (-1)).readReg 6)) ∧
      ¬(u64 ((pair 0 0).readReg 5) < u64 ((pair 0 0).readReg 6)) := by decide
theorem witness_BgeuBranchesOnUnsignedGreaterOrEqual :
    (field 0x0062f863 0 7 = 0x63 ∧ field 0x0062f863 12 3 = 7) ∧ (u64 ((pair 0 0).readReg 5) ≥ u64 ((pair 0 0).readReg 6)) ∧
      ¬(u64 ((pair 0 (-1)).readReg 5) ≥ u64 ((pair 0 (-1)).readReg 6)) := by decide
theorem witness_JalrJumpsWithoutLinking :
    field 0x0102f3e7 0 7 = 0x67 := by decide
theorem witness_JalLinksAndJumps :
    field 0x7ffff0ef 0 7 = 0x6f := by decide

theorem witness_MemReadIsTheLittleEndianSum :
    (AllMapped narrowPlatform 0x1000 8 ∧ AllMapped narrowPlatform 0xFFFFFFFFFFFFFFFF 1) ∧
      ¬AllMapped narrowPlatform 0xFFFFFFFFFFFFFFFF 2 ∧ ¬AllMapped narrowPlatform 0x1001 8 := by
  unfold AllMapped
  decide

theorem witness_MemWriteStoresItsBytesAndNoOther :
    8 ∈ [1, 2, 4, 8] ∧ Memory.wf (narrow []).mem = true ∧ AllMapped (narrow []).plat 0x1000 8 ∧
      ¬AllMapped (narrow []).plat 0x1001 8 := by
  unfold AllMapped
  decide

theorem witness_ReadingInsideAStoreGivesItsBytes :
    ∃ t, 8 ≤ 8 ∧ 6 + 2 ≤ 8 ∧ Memory.wf State.reset.mem = true ∧
      memWrite State.reset 0xFFFFFFFFFFFFFFFC 8 0x1122334455667788 = some t :=
  ⟨_, by decide, by decide, by decide, memWrite_eq_some.mpr ⟨by decide, rfl⟩⟩

theorem witness_AStoreIsSeenByTheNextFetch :
    ∃ t, Memory.wf (start [(6, 0x1004)]).mem = true ∧ exec (.sw 5 6 0) (start [(6, 0x1004)]) = .next t ∧
      t.pc = (start [(6, 0x1004)]).effAddr 6 0 := by
  refine ⟨_, by decide, (storeOp_eq 4 5 6 0 (start [(6, 0x1004)])).trans (if_pos (by decide)), by decide⟩

theorem witness_CanonicalMemoriesThatReadAlikeAreEqual :
    Memory.wf [(0, 1), (2 ^ 64 - 1, 255)] = true ∧
      ∀ a : Word, Memory.get [(0, 1), (2 ^ 64 - 1, 255)] a.toNat = Memory.get [(0, 1), (2 ^ 64 - 1, 255)] a.toNat :=
  ⟨by decide, fun _ => rfl⟩

/-- A state about to run a word. -/
def about (w : Nat) : State := (start []).withFetchWord 32 w

theorem about_takes_step (w : Nat) : TakesStep (about w) := ⟨rfl, by simp [about, State.withFetchWord, start]; decide⟩

theorem witness_AStepRunsTheInstructionItsBytesDecodeTo :
    TakesStep (about 0x00500093) ∧ AllMapped (about 0x00500093).plat (about 0x00500093).pc 4 ∧
      (about 0x00500093).cacheEn = false ∧
      decode [(about 0x00500093).byteAt (about 0x00500093).pc, (about 0x00500093).byteAt ((about 0x00500093).pc + 1),
        (about 0x00500093).byteAt ((about 0x00500093).pc + 2), (about 0x00500093).byteAt ((about 0x00500093).pc + 3)] =
        .ok (.addi 1 0 5, []) := by
  unfold TakesStep AllMapped
  decide

theorem witness_StoppedAndFaultedTakeNoStep :
    ({ State.reset with run := .stopped } : State).run ≠ .running ∧
      ({ State.reset with run := .faulted, fault := some (.opcode 0x73) } : State).run ≠ .running := by decide

/-- The state whose pc is the sentinel. -/
def atEnd : State := { start [] with pc := 0 }

theorem witness_TheRunEndsOnlyAtTheSentinelOrAnUnsupportedWord :
    (∃ t, atEnd.run = .running ∧ step atEnd = .next t ∧ atEnd.pc = atEnd.plat.sentinel ∧ t.run ≠ .faulted) ∧
      ∃ t, (about 0x73).run = .running ∧ step (about 0x73) = .next t ∧ (about 0x73).pc ≠ (about 0x73).plat.sentinel ∧
        fetch (about 0x73) = some 0x73 ∧ decodeWord 0x73 = .error (.opcode 0x73) := by
  refine ⟨⟨_, by decide, step_of_sentinel (by decide) (by decide), by decide, by decide⟩, ?_⟩
  obtain ⟨t, ht⟩ := exists_next (o := step (about 0x73)) (by decide)
  exact ⟨t, by decide, ht, by decide, by decide, by decide⟩

theorem witness_RaisingChangesOnlyTheRunTheRecordAndTheTotal :
    TakesStep (about 0x00A54533) ∧ fetch (about 0x00A54533) = some 0x00A54533 ∧
      decodeWord 0x00A54533 = .error (.funct3 4) := by
  unfold TakesStep
  decide

theorem witness_ThePcAdvancesByItsTable :
    (∃ t, exec (.jal 1 (-16)) State.reset = .next t) ∧
      ∃ t, TakesStep (about 0x73) ∧ fetch (about 0x73) = some 0x73 ∧ decodeWord 0x73 = .error (.opcode 0x73) ∧
        step (about 0x73) = .next t := by
  refine ⟨⟨_, rfl⟩, ?_⟩
  obtain ⟨t, ht⟩ := exists_next (o := step (about 0x73)) (by decide)
  exact ⟨t, about_takes_step _, by decide, by decide, ht⟩

theorem witness_EachStepCountsOneWordAndOneCategory :
    (∃ t, TakesStep (about 0x00500093) ∧ fetch (about 0x00500093) = some 0x00500093 ∧
        decodeWord 0x00500093 = .ok (.addi 1 0 5) ∧ step (about 0x00500093) = .next t) ∧
      (∃ t, TakesStep (about 0x73) ∧ fetch (about 0x73) = some 0x73 ∧ decodeWord 0x73 = .error (.opcode 0x73) ∧
        step (about 0x73) = .next t) ∧
      ∃ t, atEnd.run = .running ∧ atEnd.pc = atEnd.plat.sentinel ∧ step atEnd = .next t := by
  obtain ⟨t, ht⟩ := exists_next (o := step (about 0x00500093)) (by decide)
  obtain ⟨u, hu⟩ := exists_next (o := step (about 0x73)) (by decide)
  exact ⟨⟨t, about_takes_step _, by decide, by decide, ht⟩, ⟨u, about_takes_step _, by decide, by decide, hu⟩,
    _, by decide, by decide, step_of_sentinel (by decide) (by decide)⟩

theorem witness_OnlyTheDestinationRegisterIsWritten :
    ∃ t, exec (.add 3 1 2) State.reset = .next t ∧ destination (.add 3 1 2) ≠ some 31 := ⟨_, rfl, by decide⟩

theorem witness_InstructionsCompleteUnlessAnAccessIsUnmapped :
    (dataAccess (.ld 5 0 0x7F8) (narrow []) = some (.load, 0x7F8, 8) ∧ ¬AllMapped (narrow []).plat 0x7F8 8) ∧
      (dataAccess (.sb 5 0 (-1)) (narrow []) = some (.store, 0xFFFFFFFFFFFFFFFF, 1) ∧
        AllMapped (narrow []).plat 0xFFFFFFFFFFFFFFFF 1) ∧
      (TakesStep { narrow [] with pc := 0x1005 } ∧
        ¬AllMapped ({ narrow [] with pc := 0x1005 } : State).plat ({ narrow [] with pc := 0x1005 } : State).pc 4) := by
  unfold AllMapped TakesStep
  decide

theorem witness_StepKeepsTheInvariant : (about 0x73).Inv ∧ ∃ t, step (about 0x73) = .next t :=
  ⟨by decide, exists_next (by decide)⟩

theorem witness_StepKeepsTheCountersInBalance : (about 0x73).CountersBalance ∧ ∃ t, step (about 0x73) = .next t :=
  ⟨by decide, exists_next (by decide)⟩

theorem witness_LaunchSetsTheWholeState :
    Memory.wf [(0x1000, 0x73)] = true ∧ (31 : Reg) ∉ [1, 2, 10, 11, 12, 13] ∧ (0 : Reg) ∉ [1, 2, 10, 11, 12, 13] := by decide

theorem witness_APlacedWordIsTheNextOneRun :
    Memory.wf State.reset.mem = true ∧ State.reset.run = .running ∧ State.reset.pc ≠ State.reset.plat.sentinel ∧
      AllMapped State.reset.plat State.reset.pc 4 := by
  unfold AllMapped
  decide

/-- `jalr x0, -4(x5)` with x5 = 4: the target is 0, the sentinel. -/
def aboutJalr : State := (start [(5, 4)]).withFetchWord 32 0xFFC28067

theorem witness_ATopLevelReturnStopsTheRun :
    (TakesStep aboutJalr ∧ fetch aboutJalr = some 0xFFC28067 ∧ decodeWord 0xFFC28067 = .ok (.jalr 0 5 (-4)) ∧
        IsMod aboutJalr.plat.sentinel (u64 (aboutJalr.readReg 5) + signed 12 (-4 : BitVec 12).toNat)) ∧
      (TakesStep (about 0x00008067) ∧ fetch (about 0x00008067) = some 0x00008067 ∧
        (about 0x00008067).readReg 1 = (about 0x00008067).plat.sentinel) := by
  unfold TakesStep IsMod
  decide

theorem witness_ACompletedRunKeepsItsResult : CompletesWith 1 atEnd 0 ∧ 1 ≤ 2 := by
  refine ⟨⟨atEnd.stop, ?_, by decide⟩, by decide⟩
  show runFor 1 atEnd = .next atEnd.stop
  simp only [runFor, Host.Core.run, Sys2Proof.core, step_of_sentinel (s := atEnd) (by decide) (by decide)]

theorem witness_ThePcStaysAlignedUnderItsObligation :
    ∃ t, State.reset.PcAligned ∧ pcOffset (.jalr 0 0 8) % 4 = 0 ∧
      (∀ rd rs1 imm, Instr.jalr 0 0 8 = .jalr rd rs1 imm → (State.reset.effAddr rs1 imm).toNat % 4 = 0) ∧
      exec (.jalr 0 0 8) State.reset = .next t :=
  ⟨_, by decide, by decide, fun _ _ _ h => by cases h; decide, rfl⟩

end Sys2Proof.Tests
end

section
/-! SUPPORT. The vocabulary of the statements as the library's bit vectors: `signed` is `BitVec.toInt`, and `IsMod` is a cast
of an integer to 64 bits, so that a wrapped sum of the model is the sum of the integers modulo 2^64 (R6, R8, D22). -/

namespace Sys2Proof.Says

open Sys2Proof.Machine

/-- R6, R8: `signed` on all the bits of a value is its two's-complement integer. -/
theorem signed_toNat {w : Nat} (hw : 0 < w) (v : BitVec w) : signed w v.toNat = v.toInt := by
  have hp : 2 ^ w = 2 * 2 ^ (w - 1) := by rw [← Nat.pow_succ', Nat.succ_eq_add_one, Nat.sub_add_cancel hw]
  have hlt : v.toNat < 2 ^ (w - 1) ↔ 2 * v.toNat < 2 ^ w := by omega
  simp only [signed, Nat.mod_eq_of_lt v.isLt, hlt, BitVec.toInt_eq_toNat_cond]

theorem s64_eq_toInt (v : Word) : s64 v = v.toInt := signed_toNat (by decide) v

/-- The address sum the model makes is the integer sum, wrapped (R6). -/
theorem isMod_add_toInt (a b : Word) : IsMod (a + b) (a.toNat + b.toInt) := by
  rw [IsMod, BitVec.toNat_add, Int.natCast_emod, Int.natCast_add, BitVec.toInt_eq_toNat_bmod]
  exact (Int.ModEq.add_left _ Int.bmod_emod).symm

theorem isMod_add_imm12 (a : Word) (imm : BitVec 12) : IsMod (a + imm12 imm) (u64 a + signed 12 imm.toNat) := by
  rw [signed_toNat (by decide), ← imm12_toInt]
  exact isMod_add_toInt a _

theorem isMod_add_imm13 (a : Word) (imm : BitVec 13) : IsMod (a + imm13 imm) (a.toNat + signed 13 imm.toNat) := by
  rw [signed_toNat (by decide), ← imm13_toInt]
  exact isMod_add_toInt a _

theorem isMod_add_imm21 (a : Word) (imm : BitVec 21) : IsMod (a + imm21 imm) (a.toNat + signed 21 imm.toNat) := by
  rw [signed_toNat (by decide), ← imm21_toInt]
  exact isMod_add_toInt a _

/-- R13: the next sequential pc. -/
theorem isMod_next (pc : Word) : IsMod pc.next (pc.toNat + 4) := isMod_add_toInt pc 4

end Sys2Proof.Says
end

section
/-! SUPPORT. The next pc of each shared operation of the executors (R14). -/

namespace Sys2Proof.Machine

open Sys2Proof.Says

section NextPc
variable {s t : State} {n : Nat}

theorem arithOp_pc {rd : Reg} {v : Word} (h : arithOp rd v s = .next t) : t.pc = s.pc.next := by
  cases h; rfl

theorem loadOp_pc {e : Word → Word} {rd rs1 : Reg} {imm : BitVec 12} (h : loadOp n e rd rs1 imm s = .next t) :
    t.pc = s.pc.next := by
  rw [loadOp_eq] at h
  split at h
  · cases h; rfl
  · cases h

theorem storeOp_pc {rs2 rs1 : Reg} {imm : BitVec 12} (h : storeOp n rs2 rs1 imm s = .next t) : t.pc = s.pc.next := by
  rw [storeOp_eq] at h
  split at h
  · cases h; rfl
  · cases h

/-- R135: the target when the relation `p` the condition decides holds, the next sequential pc when it does not. -/
theorem branchOp_pc {p : Prop} [Decidable p] {cond : Bool} {imm : BitVec 13} (hc : cond = true ↔ p)
    (h : branchOp cond imm s = .next t) :
    IsMod t.pc (if p then s.pc.toNat + signed 13 imm.toNat else s.pc.toNat + 4) := by
  rw [branchOp_eq] at h
  cases h
  rw [retire_pc]
  by_cases hp : p
  · rw [if_pos hp, if_pos (hc.mpr hp)]
    exact isMod_add_imm13 s.pc imm
  · rw [if_neg hp, if_neg (mt hc.mp hp)]
    exact isMod_next s.pc

end NextPc

/-! ## The six relations as the statements write them (R136 to R141) -/

section Conditions
variable {x y : Word}

theorem condEq_iff : condEq x y = true ↔ x = y := decide_eq_true_iff
theorem condNe_iff : condNe x y = true ↔ x ≠ y := by rw [condNe, Bool.not_eq_true', decide_eq_false_iff_not]
theorem condLt_iff : condLt x y = true ↔ s64 x < s64 y := by rw [condLt, decide_eq_true_iff, s64_eq_toInt, s64_eq_toInt]
theorem condGe_iff : condGe x y = true ↔ s64 x ≥ s64 y := by
  rw [condGe, decide_eq_true_iff, s64_eq_toInt, s64_eq_toInt, ge_iff_le]
theorem condLtu_iff : condLtu x y = true ↔ u64 x < u64 y := decide_eq_true_iff
theorem condGeu_iff : condGeu x y = true ↔ u64 x ≥ u64 y := decide_eq_true_iff

end Conditions

/-- The table of R14, row by row: the instructions that fall through, the six branches, the two jumps. -/
theorem exec_pc {i : Instr} {s t : State} (h : exec i s = .next t) : IsMod t.pc (nextPc i s) := by
  have fallsThrough (hpc : t.pc = s.pc.next) : IsMod t.pc (s.pc.toNat + 4) := hpc ▸ isMod_next s.pc
  cases i with
  | add | sub | mul | sll | srl | sra | divu | and | remu | addi | slli | srli | srai =>
    exact fallsThrough (arithOp_pc h)
  | lb | lh | lw | ld => exact fallsThrough (loadOp_pc h)
  | sb | sh | sw | sd => exact fallsThrough (storeOp_pc h)
  | beq => exact branchOp_pc condEq_iff h
  | bne => exact branchOp_pc condNe_iff h
  | blt => exact branchOp_pc condLt_iff h
  | bge => exact branchOp_pc condGe_iff h
  | bltu => exact branchOp_pc condLtu_iff h
  | bgeu => exact branchOp_pc condGeu_iff h
  | jalr rd rs1 imm =>
    cases h
    exact isMod_add_imm12 (s.readReg rs1) imm
  | jal rd imm =>
    cases h
    exact isMod_add_imm21 s.pc imm

/-- R182: a step whose word raises answers the state after the fetch with the record in it. -/
theorem step_of_raise {s : State} {iw : InstrWord} {r : Unsupported} (hs : TakesStep s) (hf : fetch s = some iw)
    (hd : decodeWord iw = .error r) : step s = .next (raiseUnsupported r (s.afterFetch iw)) := by
  obtain ⟨hrun, hpc⟩ := hs
  rw [step_of_fetch hrun hpc hf, dispatchWord_error hd]

end Sys2Proof.Machine
end

section
/-! PROOFS. The statements of 10_state.md. -/

namespace Sys2Proof.Proofs

open Sys2Proof.Machine Sys2Proof.Says

/-- Settles O46: every shared operation of the executors sets the pc of R14's table, and a raise leaves it alone. -/
theorem thePcAdvancesByItsTable : Obligations.ThePcAdvancesByItsTable := by
  refine ⟨fun i s t h => exec_pc h, fun s t iw r hs hf hd h => ?_⟩
  rw [step_of_raise hs hf hd] at h
  cases h
  rfl

end Sys2Proof.Proofs
end

section
/-! SUPPORT. The immediates of a word in the statements' arithmetic (R56 to R60): `signed` has the two's-complement range and
commutes with the appended zero, and the decoder's concatenations are the numbers R56 to R59 list. -/

namespace Sys2Proof.Says

open Sys2Proof.Machine

/-- R6, R8: the range of a two's-complement reading. -/
theorem signed_mem_range {w : Nat} (hw : 0 < w) (v : Nat) :
    -((2 ^ (w - 1) : Nat) : Int) ≤ signed w v ∧ signed w v < (2 ^ (w - 1) : Nat) := by
  have hp : 2 * 2 ^ (w - 1) = 2 ^ w := mul_pow_sub_one hw.ne' 2
  have hlt : v % 2 ^ w < 2 ^ w := Nat.mod_lt v (Nat.two_pow_pos w)
  unfold signed
  split <;> omega

/-- R60: a zero appended below the field doubles its reading. -/
theorem signed_succ_two_mul {w : Nat} (hw : 0 < w) (v : Nat) : signed (w + 1) (2 * v) = 2 * signed w v := by
  have hp : 2 * 2 ^ (w - 1) = 2 ^ w := mul_pow_sub_one hw.ne' 2
  have hlt : 2 * (v % 2 ^ w) < 2 ^ w ↔ v % 2 ^ w < 2 ^ (w - 1) := by omega
  simp only [signed, Nat.pow_succ', Nat.mul_mod_mul_left, Nat.add_sub_cancel, hlt]
  split <;> omega

theorem s64_imm12 (imm : BitVec 12) : s64 (imm12 imm) = signed 12 imm.toNat := by
  rw [s64_eq_toInt, imm12_toInt, signed_toNat (by decide)]

theorem s64_imm13 (imm : BitVec 13) : s64 (imm13 imm) = signed 13 imm.toNat := by
  rw [s64_eq_toInt, imm13_toInt, signed_toNat (by decide)]

theorem s64_imm21 (imm : BitVec 21) : s64 (imm21 imm) = signed 21 imm.toNat := by
  rw [s64_eq_toInt, imm21_toInt, signed_toNat (by decide)]

theorem extractBits_toNat_eq_field (iw : InstrWord) (lo n : Nat) : (extractBits iw lo n).toNat = field iw lo n :=
  extractBits_toNat iw lo n

theorem immIOf_toNat (iw : InstrWord) : (immIOf iw).toNat = field iw 20 12 := extractBits_toNat_eq_field iw 20 12

theorem immSOf_toNat (iw : InstrWord) : (immSOf iw).toNat = storeField iw := by
  simp only [immSOf, append_toNat, extractBits_toNat_eq_field, storeField]

theorem immBOf_toNat (iw : InstrWord) : (immBOf iw).toNat = branchField iw := by
  simp only [immBOf, append_toNat, extractBits_toNat_eq_field, branchField, BitVec.toNat_ofNat]
  omega

theorem immJOf_toNat (iw : InstrWord) : (immJOf iw).toNat = jumpField iw := by
  simp only [immJOf, append_toNat, extractBits_toNat_eq_field, jumpField, BitVec.toNat_ofNat]
  omega

theorem two_mul_branchField_div_two (iw : InstrWord) : 2 * (branchField iw / 2) = branchField iw := by
  unfold branchField
  omega

theorem two_mul_jumpField_div_two (iw : InstrWord) : 2 * (jumpField iw / 2) = jumpField iw := by
  unfold jumpField
  omega

/-- R58, R60: the branch offset is twice the reading of its field without the appended zero. -/
theorem signed_branchField (iw : InstrWord) : signed 13 (branchField iw) = 2 * signed 12 (branchField iw / 2) := by
  rw [← signed_succ_two_mul (by decide), two_mul_branchField_div_two]

/-- R59, R60: the jump offset is twice the reading of its field without the appended zero. -/
theorem signed_jumpField (iw : InstrWord) : signed 21 (jumpField iw) = 2 * signed 20 (jumpField iw / 2) := by
  rw [← signed_succ_two_mul (by decide), two_mul_jumpField_div_two]

end Sys2Proof.Says
end

section
/-! PROOFS. The statements of 30_encoding.md. -/

namespace Sys2Proof.Proofs

open Sys2Proof.Machine Sys2Proof.Says

/-- Settles O4: each immediate reads the number of its field; the two offsets are twice the shorter reading, and the range of
that shorter reading gives theirs. -/
theorem immediatesAreTheSignExtendedFields : Obligations.ImmediatesAreTheSignExtendedFields := by
  intro iw
  rw [s64_imm12, s64_imm12, s64_imm13, s64_imm21, immIOf_toNat, immSOf_toNat, immBOf_toNat, immJOf_toNat]
  obtain ⟨hIlo, hIhi⟩ := signed_mem_range (w := 12) (by decide) (field iw 20 12)
  obtain ⟨hSlo, hShi⟩ := signed_mem_range (w := 12) (by decide) (storeField iw)
  obtain ⟨hBlo, hBhi⟩ := signed_mem_range (w := 12) (by decide) (branchField iw / 2)
  obtain ⟨hJlo, hJhi⟩ := signed_mem_range (w := 20) (by decide) (jumpField iw / 2)
  have hB := signed_branchField iw
  have hJ := signed_jumpField iw
  refine ⟨⟨rfl, ?_, ?_⟩, ⟨rfl, ?_, ?_⟩, ⟨rfl, ?_, hB, ?_, ?_⟩, ⟨rfl, ?_, hJ, ?_, ?_⟩⟩ <;> omega

end Sys2Proof.Proofs
end

section
/-! SUPPORT. The decoder's fields of a word as the numbers the statements give (R7, R51), and the common effect of R80 and
R100, which every instruction that ends in `arithOp` has. -/

namespace Sys2Proof.Says

open Sys2Proof.Machine

section Fields
variable {iw : InstrWord} {lo n k : Nat}

theorem extractBits_eq_of_field (h : field iw lo n = k) : extractBits iw lo n = BitVec.ofNat n k := by
  rw [← h, ← extractBits_toNat_eq_field, BitVec.ofNat_toNat, BitVec.setWidth_eq]

theorem rdOf_eq_regField (iw : InstrWord) : rdOf iw = regField iw 7 := extractBits_eq_of_field rfl
theorem rs1Of_eq_regField (iw : InstrWord) : rs1Of iw = regField iw 15 := extractBits_eq_of_field rfl
theorem rs2Of_eq_regField (iw : InstrWord) : rs2Of iw = regField iw 20 := extractBits_eq_of_field rfl

/-- A one-bit field is the bit. -/
theorem getLsbD_eq_of_field (h : field iw lo 1 = k) : iw.getLsbD lo = decide (k = 1) := by
  rw [← h]
  exact getLsbD_eq_decide iw lo

/-- R63: opcode 0x33 selects the R executor. -/
theorem decodeWord_of_opR (h : field iw 0 7 = 0x33) : decodeWord iw = decodeR iw :=
  if_pos (extractBits_eq_of_field h)

end Fields

section Effects
variable {rd : Reg} {v : Word} {result : Word → Prop}

/-- R11: an instruction that writes a register and retires writes no other, and nothing for register 0. -/
theorem onlyRegWritten_writeReg_retire (h : result v) (s : State) (c : Category) (npc : Word) :
    OnlyRegWritten rd result s ((s.writeReg rd v).retire c npc) := by
  refine ⟨fun hrd => ?_, fun r hr => ?_, readReg_zero _⟩
  · rwa [readReg_retire, readReg_writeReg, if_pos ⟨rfl, hrd⟩]
  · rw [readReg_retire, readReg_writeReg, if_neg fun hw => hr hw.1]

/-- R80, R100: `arithOp` completes with the common effect, for whatever holds of the value it is given. -/
theorem arithOp_arithEffect (h : result v) (s : State) : ∃ t, arithOp rd v s = .next t ∧ ArithEffect rd result s t :=
  ⟨_, rfl, onlyRegWritten_writeReg_retire h s _ _, isMod_next s.pc, rfl, fun _ => rfl, rfl, rfl, rfl, rfl, rfl⟩

end Effects

/-- R64, R80: the rule of an R-type instruction, from the executor's selection, the value its meaning hands to `arithOp`, and
the arithmetic of that value. -/
theorem rRule_of_arithOp {funct3 bit30 bit25 : Nat} {mk : Reg → Reg → Reg → Instr} {op : Word → Word → Word}
    {result : Word → Word → Word → Prop}
    (hdecode : ∀ iw, funct3Of iw = BitVec.ofNat 3 funct3 → funct7Bit5 iw = decide (bit30 = 1) →
      funct7Bit0 iw = decide (bit25 = 1) → decodeR iw = .ok (mk (rdOf iw) (rs1Of iw) (rs2Of iw)))
    (hexec : ∀ rd rs1 rs2 s, exec (mk rd rs1 rs2) s = arithOp rd (op (s.readReg rs1) (s.readReg rs2)) s)
    (hresult : ∀ x y, result x y (op x y)) : RRule funct3 bit30 bit25 mk result := by
  refine ⟨fun iw hop h3 h30 h25 => ?_, fun rd rs1 rs2 s => ?_⟩
  · rw [decodeWord_of_opR hop, hdecode iw (extractBits_eq_of_field h3) (getLsbD_eq_of_field h30) (getLsbD_eq_of_field h25),
      rdOf_eq_regField, rs1Of_eq_regField, rs2Of_eq_regField]
  · rw [hexec]
    exact arithOp_arithEffect (hresult _ _) s

/-- R6, D22: the difference the model makes is the integer difference, wrapped. -/
theorem isMod_sub (x y : Word) : IsMod (x - y) ((u64 x : Int) - u64 y) := by
  have hx := x.isLt
  have hy := y.isLt
  rw [IsMod, BitVec.toNat_sub, u64, u64]
  omega

end Sys2Proof.Says
end

section
/-! SUPPORT. The R executor's selection, one equation per row of R64 that a statement names, and the meanings through
`arithOp`. -/

namespace Sys2Proof.Machine

section Selection
variable {iw : InstrWord}

theorem decodeR_add (h3 : funct3Of iw = 0) (h5 : funct7Bit5 iw = false) (h0 : funct7Bit0 iw = false) :
    decodeR iw = .ok (.add (rdOf iw) (rs1Of iw) (rs2Of iw)) := by
  simp [decodeR, h3, h5, h0]

theorem decodeR_sub (h3 : funct3Of iw = 0) (h5 : funct7Bit5 iw = true) (h0 : funct7Bit0 iw = false) :
    decodeR iw = .ok (.sub (rdOf iw) (rs1Of iw) (rs2Of iw)) := by
  simp [decodeR, h3, h5, h0]

theorem decodeR_and (h3 : funct3Of iw = 7) (h5 : funct7Bit5 iw = false) (h0 : funct7Bit0 iw = false) :
    decodeR iw = .ok (.and (rdOf iw) (rs1Of iw) (rs2Of iw)) := by
  simp [decodeR, h3, h5, h0]

end Selection

section Meaning
variable (rd rs1 rs2 : Reg) (s : State)

theorem exec_add : exec (.add rd rs1 rs2) s = arithOp rd (s.readReg rs1 + s.readReg rs2) s := rfl
theorem exec_sub : exec (.sub rd rs1 rs2) s = arithOp rd (s.readReg rs1 - s.readReg rs2) s := rfl
theorem exec_and : exec (.and rd rs1 rs2) s = arithOp rd (s.readReg rs1 &&& s.readReg rs2) s := rfl

end Meaning

end Sys2Proof.Machine
end

section
/-! PROOFS. The statements of 40_r_type.md. -/

namespace Sys2Proof.Proofs

open Sys2Proof.Machine Sys2Proof.Says

/-- Settles O7: the sum of two bit vectors is the sum of their numbers modulo 2^64. -/
theorem addWritesTheSumModulo64Bits : Obligations.AddWritesTheSumModulo64Bits :=
  rRule_of_arithOp (fun _ => decodeR_add) exec_add BitVec.toNat_add

/-- Settles O8: the difference of two bit vectors is the integer difference modulo 2^64. -/
theorem subWritesTheDifferenceModulo64Bits : Obligations.SubWritesTheDifferenceModulo64Bits :=
  rRule_of_arithOp (fun _ => decodeR_sub) exec_sub isMod_sub

/-- Settles O14: each bit of the conjunction of two bit vectors is the conjunction of their bits. -/
theorem andIsBitwise : Obligations.AndIsBitwise :=
  rRule_of_arithOp (fun _ => decodeR_and) exec_and fun _ _ _ _ => BitVec.getLsbD_and

end Sys2Proof.Proofs
end

section
/-! SUPPORT. The I-arithmetic executor's selection of ADDI (R65), and its meaning through `arithOp`. -/

namespace Sys2Proof.Machine

open Sys2Proof.Says

section Fields
variable {iw : InstrWord}

/-- R63: opcode 0x13 selects the I-arithmetic executor. -/
theorem decodeWord_of_opIArith (h : field iw 0 7 = 0x13) : decodeWord iw = decodeIArith iw := by
  have hop : opcodeOf iw = opIArith := extractBits_eq_of_field h
  have hne : opcodeOf iw ≠ opR := hop ▸ by decide
  rw [decodeWord, if_neg hne, if_pos hop]

theorem immIOf_eq_field (iw : InstrWord) : immIOf iw = BitVec.ofNat 12 (field iw 20 12) := extractBits_eq_of_field rfl

theorem decodeIArith_addi (h3 : funct3Of iw = 0) : decodeIArith iw = .ok (.addi (rdOf iw) (rs1Of iw) (immIOf iw)) :=
  if_pos h3

end Fields

theorem exec_addi (rd rs1 : Reg) (imm : BitVec 12) (s : State) :
    exec (.addi rd rs1 imm) s = arithOp rd (s.readReg rs1 + imm12 imm) s := rfl

end Sys2Proof.Machine
end

section
/-! PROOFS. The statements of 41_i_arith.md. -/

namespace Sys2Proof.Proofs

open Sys2Proof.Machine Sys2Proof.Says

/-- Settles O17: the sum with the sign-extended immediate is the integer sum, wrapped, and `arithOp` writes it. -/
theorem addiAddsTheSignExtendedImmediate : Obligations.AddiAddsTheSignExtendedImmediate := by
  refine ⟨fun iw hop h3 => ?_, fun rd rs1 imm s => ?_⟩
  · rw [decodeWord_of_opIArith hop, decodeIArith_addi (extractBits_eq_of_field h3), rdOf_eq_regField, rs1Of_eq_regField,
      immIOf_eq_field]
  · rw [exec_addi]
    exact arithOp_arithEffect (isMod_add_imm12 _ imm) s

end Sys2Proof.Proofs
end

section
/-! SUPPORT. The value a load writes, as the statements read it (R32, R8), and the rule of a load from its executor's
selection and its meaning through `loadOp` (R66, R110). -/

namespace Sys2Proof.Says

open Sys2Proof.Machine

/-- A 64-bit value is its two's-complement integer modulo 2^64 (R6). -/
theorem isMod_toInt (v : Word) : IsMod v v.toInt := by
  simpa using isMod_add_toInt 0 v

/-- `signed` ignores the bits at and above its width (D36). -/
theorem signed_mod (w v : Nat) : signed w (v % 2 ^ w) = signed w v := by
  simp only [signed, Nat.mod_mod]

/-- R8: sign extension of a number's low `w` bits is their two's-complement reading, wrapped. -/
theorem isMod_sext_ofNat {w : Nat} (hw : 0 < w) (hle : w ≤ 64) (k : Nat) :
    IsMod (sext w (BitVec.ofNat 64 k)) (signed w k) := by
  have hlow : (BitVec.ofNat 64 k).setWidth w = BitVec.ofNat w k := BitVec.setWidth_ofNat_of_le hle k
  have hint : (sext w (BitVec.ofNat 64 k)).toInt = signed w k := by
    rw [sext_toInt hle, hlow, ← signed_toNat hw, BitVec.toNat_ofNat, signed_mod]
  exact hint ▸ isMod_toInt _

/-- R63: opcode 0x03 selects the load executor. -/
theorem decodeWord_of_opLoad {iw : InstrWord} (h : field iw 0 7 = 0x03) : decodeWord iw = decodeLoad iw := by
  have hop : opcodeOf iw = opLoad := extractBits_eq_of_field h
  have hR : opcodeOf iw ≠ opR := hop ▸ by decide
  have hI : opcodeOf iw ≠ opIArith := hop ▸ by decide
  rw [decodeWord, if_neg hR, if_neg hI, if_pos hop]

/-- R32: the statements' sum is the number the model loads. -/
theorem bytesValue_eq_loadBytes (s : State) (a : Word) (n : Nat) : bytesValue s a n = loadBytes s.mem a n :=
  (loadBytes_eq_sum s.mem a n).symm

/-- R110: where its bytes are mapped, `loadOp` completes with the state `loadOp_eq` gives. -/
theorem loadOp_of_allMapped {n : Nat} {rs1 : Reg} {imm : BitVec 12} {s : State}
    (h : AllMapped s.plat (s.effAddr rs1 imm) n) (extend : Word → Word) (rd : Reg) :
    loadOp n extend rd rs1 imm s =
      .next ((s.writeReg rd (extend (BitVec.ofNat 64 (bytesValue s (s.effAddr rs1 imm) n)))).retire .load s.pc.next) := by
  rw [loadOp_eq, if_pos (mappedRange_iff.mpr h), bytesValue_eq_loadBytes]

/-- R66, R110: the rule of a sign-extending load of `n` bytes, from the executor's selection and its meaning. -/
theorem loadRule_of_loadOp {funct3 n : Nat} {mk : Reg → Reg → BitVec 12 → Instr} (hpos : 0 < n) (hle : n ≤ 8)
    (hdecode : ∀ iw, funct3Of iw = BitVec.ofNat 3 funct3 → decodeLoad iw = .ok (mk (rdOf iw) (rs1Of iw) (immIOf iw)))
    (hexec : ∀ rd rs1 imm s, exec (mk rd rs1 imm) s = loadOp n (sext (8 * n)) rd rs1 imm s) :
    LoadRule funct3 n mk := by
  refine ⟨fun iw hop h3 => ?_, fun rd rs1 imm s => ⟨isMod_add_imm12 (s.readReg rs1) imm, fun hmapped => ?_⟩⟩
  · rw [decodeWord_of_opLoad hop, hdecode iw (extractBits_eq_of_field h3), rdOf_eq_regField, rs1Of_eq_regField,
      immIOf_eq_field]
  · have hvalue := isMod_sext_ofNat (w := 8 * n) (by omega) (by omega) (bytesValue s (s.effAddr rs1 imm) n)
    rw [hexec, loadOp_of_allMapped hmapped]
    exact ⟨_, rfl, onlyRegWritten_writeReg_retire hvalue s _ _, isMod_next s.pc, rfl, fun _ => rfl,
      rfl, rfl, rfl, rfl, rfl⟩

end Sys2Proof.Says
end

section
/-! SUPPORT. The load executor's selection of LB and LD (R66), and their meanings through `loadOp`. -/

namespace Sys2Proof.Machine

section Selection
variable {iw : InstrWord}

theorem decodeLoad_lb (h3 : funct3Of iw = 0) : decodeLoad iw = .ok (.lb (rdOf iw) (rs1Of iw) (immIOf iw)) := by
  simp [decodeLoad, h3]

theorem decodeLoad_ld (h3 : funct3Of iw = 3) : decodeLoad iw = .ok (.ld (rdOf iw) (rs1Of iw) (immIOf iw)) := by
  simp [decodeLoad, h3]

end Selection

section Meaning
variable (rd rs1 : Reg) (imm : BitVec 12) (s : State)

theorem exec_lb : exec (.lb rd rs1 imm) s = loadOp 1 (sext 8) rd rs1 imm s := rfl
theorem exec_ld : exec (.ld rd rs1 imm) s = loadOp 8 (sext 64) rd rs1 imm s := rfl

end Meaning

end Sys2Proof.Machine
end

section
/-! PROOFS. The statements of 42_loads.md. -/

namespace Sys2Proof.Proofs

open Sys2Proof.Machine Sys2Proof.Says

/-- Settles O21: the rule of a load at one byte, whose value is extended from 8 bits. -/
theorem lbLoadsOneByteSignExtended : Obligations.LbLoadsOneByteSignExtended :=
  loadRule_of_loadOp (by decide) (by decide) (fun _ => decodeLoad_lb) exec_lb

/-- Settles O24: the rule of a load at eight bytes, whose value already has all 64 bits. -/
theorem ldLoadsEightBytes : Obligations.LdLoadsEightBytes :=
  loadRule_of_loadOp (by decide) (by decide) (fun _ => decodeLoad_ld) exec_ld

end Sys2Proof.Proofs
end

section
/-! SUPPORT. The bytes of memory after a store, addressed as the statements address them (R33), and the rule of a store from
its executor's selection and its meaning through `storeOp` (R66, R125). -/

namespace Sys2Proof.Says

open Sys2Proof.Machine

section Bytes
variable {m : Memory} {n : Nat}

/-- The distance from `a` to its byte address `i`, around the address space. -/
theorem toNat_at_sub (a : Word) {i : Nat} (hi : i < 2 ^ 64) : (at_ a i - a).toNat = i := by
  rw [at_, BitVec.add_comm, BitVec.add_sub_cancel, BitVec.toNat_ofNat, Nat.mod_eq_of_lt hi]

/-- Every address is a byte address of `a`, at its distance from `a`. -/
theorem at_toNat_sub (a b : Word) : at_ a (b - a).toNat = b := by
  rw [at_, BitVec.ofNat_toNat, BitVec.setWidth_eq, BitVec.add_comm, BitVec.sub_add_cancel]

/-- R33: byte `i` at the address plus `i` is bits `8 i + 7` to `8 i` of the value. -/
theorem get_storeBytes_at (hm : Memory.wf m = true) (hn : n < 2 ^ 64) (a v : Word) {i : Nat} (hi : i < n) :
    (Memory.get (storeBytes m a n v) (at_ a i).toNat).toNat = u64 v / 2 ^ (8 * i) % 2 ^ 8 := by
  have hdist : (at_ a i - a).toNat = i := toNat_at_sub a (hi.trans hn)
  rw [get_storeBytes hm hn, hdist, if_pos hi, BitVec.toNat_setWidth, BitVec.toNat_ushiftRight,
    Nat.shiftRight_eq_div_pow, u64]

/-- R33: a byte at none of the addresses of the store reads as before. -/
theorem get_storeBytes_of_ne (hm : Memory.wf m = true) (hn : n < 2 ^ 64) {a b : Word} (v : Word)
    (hb : ∀ i, i < n → b ≠ at_ a i) : Memory.get (storeBytes m a n v) b.toNat = Memory.get m b.toNat := by
  have hfar : ¬(b - a).toNat < n := fun hlt => hb _ hlt (at_toNat_sub a b).symm
  rw [get_storeBytes hm hn, if_neg hfar]

end Bytes

section Fields
variable {iw : InstrWord}

/-- R63: opcode 0x23 selects the store executor. -/
theorem decodeWord_of_opStore (h : field iw 0 7 = 0x23) : decodeWord iw = decodeStore iw := by
  have hop : opcodeOf iw = opStore := extractBits_eq_of_field h
  have hR : opcodeOf iw ≠ opR := hop ▸ by decide
  have hI : opcodeOf iw ≠ opIArith := hop ▸ by decide
  have hL : opcodeOf iw ≠ opLoad := hop ▸ by decide
  have hJ : opcodeOf iw ≠ opJalr := hop ▸ by decide
  rw [decodeWord, if_neg hR, if_neg hI, if_neg hL, if_neg hJ, if_pos hop]

theorem immSOf_eq_storeField (iw : InstrWord) : immSOf iw = BitVec.ofNat 12 (storeField iw) := by
  rw [← immSOf_toNat, BitVec.ofNat_toNat, BitVec.setWidth_eq]

end Fields

/-- R125: where its bytes are mapped, `storeOp` completes with the state `storeOp_eq` gives. -/
theorem storeOp_of_allMapped {n : Nat} {rs1 : Reg} {imm : BitVec 12} {s : State}
    (h : AllMapped s.plat (s.effAddr rs1 imm) n) (rs2 : Reg) :
    storeOp n rs2 rs1 imm s =
      .next (State.retire { s with mem := storeBytes s.mem (s.effAddr rs1 imm) n (s.readReg rs2) } .store s.pc.next) := by
  rw [storeOp_eq, if_pos (mappedRange_iff.mpr h)]

/-- R66, R125: the rule of a store of `n` bytes, from the executor's selection and its meaning. -/
theorem storeRule_of_storeOp {funct3 n : Nat} {mk : Reg → Reg → BitVec 12 → Instr} (hn : n < 2 ^ 64)
    (hdecode : ∀ iw, funct3Of iw = BitVec.ofNat 3 funct3 → decodeStore iw = .ok (mk (rs2Of iw) (rs1Of iw) (immSOf iw)))
    (hexec : ∀ rs2 rs1 imm s, exec (mk rs2 rs1 imm) s = storeOp n rs2 rs1 imm s) :
    StoreRule funct3 n mk := by
  refine ⟨fun iw hop h3 => ?_, fun rs2 rs1 imm s => ⟨isMod_add_imm12 (s.readReg rs1) imm, fun hwf hmapped => ?_⟩⟩
  · rw [decodeWord_of_opStore hop, hdecode iw (extractBits_eq_of_field h3), rs2Of_eq_regField, rs1Of_eq_regField,
      immSOf_eq_storeField]
  · rw [hexec, storeOp_of_allMapped hmapped]
    exact ⟨_, rfl, fun _ hi => get_storeBytes_at hwf hn _ _ hi, fun _ hb => get_storeBytes_of_ne hwf hn _ hb,
      fun _ => rfl, isMod_next s.pc, rfl, rfl, rfl, rfl, rfl, rfl⟩

end Sys2Proof.Says
end

section
/-! SUPPORT. The store executor's selection, one equation per row of R66, and the meanings through `storeOp`. -/

namespace Sys2Proof.Machine

section Selection
variable {iw : InstrWord}

theorem decodeStore_sb (h3 : funct3Of iw = 0) : decodeStore iw = .ok (.sb (rs2Of iw) (rs1Of iw) (immSOf iw)) := by
  simp [decodeStore, h3]

theorem decodeStore_sh (h3 : funct3Of iw = 1) : decodeStore iw = .ok (.sh (rs2Of iw) (rs1Of iw) (immSOf iw)) := by
  simp [decodeStore, h3]

theorem decodeStore_sw (h3 : funct3Of iw = 2) : decodeStore iw = .ok (.sw (rs2Of iw) (rs1Of iw) (immSOf iw)) := by
  simp [decodeStore, h3]

theorem decodeStore_sd (h3 : funct3Of iw = 3) : decodeStore iw = .ok (.sd (rs2Of iw) (rs1Of iw) (immSOf iw)) := by
  simp [decodeStore, h3]

end Selection

section Meaning
variable (rs2 rs1 : Reg) (imm : BitVec 12) (s : State)

theorem exec_sb : exec (.sb rs2 rs1 imm) s = storeOp 1 rs2 rs1 imm s := rfl
theorem exec_sh : exec (.sh rs2 rs1 imm) s = storeOp 2 rs2 rs1 imm s := rfl
theorem exec_sw : exec (.sw rs2 rs1 imm) s = storeOp 4 rs2 rs1 imm s := rfl
theorem exec_sd : exec (.sd rs2 rs1 imm) s = storeOp 8 rs2 rs1 imm s := rfl

end Meaning

end Sys2Proof.Machine
end

section
/-! PROOFS. The statements of 44_stores.md. -/

namespace Sys2Proof.Proofs

open Sys2Proof.Machine Sys2Proof.Says

/-- Settles O25: the rule of a store at one byte. -/
theorem sbStoresTheLowByte : Obligations.SbStoresTheLowByte :=
  storeRule_of_storeOp (by decide) (fun _ => decodeStore_sb) exec_sb

/-- Settles O26: the rule of a store at two bytes. -/
theorem shStoresTheLowTwoBytes : Obligations.ShStoresTheLowTwoBytes :=
  storeRule_of_storeOp (by decide) (fun _ => decodeStore_sh) exec_sh

/-- Settles O27: the rule of a store at four bytes, so that the upper 32 bits of the register are dropped. -/
theorem swStoresTheLowFourBytes : Obligations.SwStoresTheLowFourBytes :=
  storeRule_of_storeOp (by decide) (fun _ => decodeStore_sw) exec_sw

/-- Settles O28: the rule of a store at eight bytes, the whole register. -/
theorem sdStoresEightBytes : Obligations.SdStoresEightBytes :=
  storeRule_of_storeOp (by decide) (fun _ => decodeStore_sd) exec_sd

end Sys2Proof.Proofs
end

section
/-! SUPPORT. The rule of a branch from its executor's selection, its meaning through `branchOp`, and the relation its condition
decides (R66, R135). -/

namespace Sys2Proof.Says

open Sys2Proof.Machine

section Fields
variable {iw : InstrWord}

/-- R63: opcode 0x63 selects the branch executor. -/
theorem decodeWord_of_opBranch (h : field iw 0 7 = 0x63) : decodeWord iw = decodeBranch iw := by
  have hop : opcodeOf iw = opBranch := extractBits_eq_of_field h
  have hR : opcodeOf iw ≠ opR := hop ▸ by decide
  have hI : opcodeOf iw ≠ opIArith := hop ▸ by decide
  have hL : opcodeOf iw ≠ opLoad := hop ▸ by decide
  have hJ : opcodeOf iw ≠ opJalr := hop ▸ by decide
  have hS : opcodeOf iw ≠ opStore := hop ▸ by decide
  rw [decodeWord, if_neg hR, if_neg hI, if_neg hL, if_neg hJ, if_neg hS, if_pos hop]

theorem immBOf_eq_branchField (iw : InstrWord) : immBOf iw = BitVec.ofNat 13 (branchField iw) := by
  rw [← immBOf_toNat, BitVec.ofNat_toNat, BitVec.setWidth_eq]

end Fields

section Effects
variable {p : Prop} {cond : Bool}

/-- R135: a branch whose relation `p` holds retires as taken, at its target. -/
theorem branchOp_of_holds (hc : cond = true ↔ p) (hp : p) (imm : BitVec 13) (s : State) :
    branchOp cond imm s = .next (s.retire .brTaken (s.pc + imm13 imm)) := by
  rw [branchOp_eq, hc.mpr hp]
  rfl

/-- R135: a branch whose relation `p` fails retires as not taken, at the next sequential pc. -/
theorem branchOp_of_fails (hc : cond = true ↔ p) (hp : ¬p) (imm : BitVec 13) (s : State) :
    branchOp cond imm s = .next (s.retire .brNotTaken s.pc.next) := by
  rw [branchOp_eq, Bool.eq_false_iff.mpr (mt hc.mp hp)]
  rfl

end Effects

/-- R66, R135: the rule of a branch, split on whether its relation holds; only the pc and one counter change. -/
theorem branchRule_of_branchOp {funct3 : Nat} {mk : Reg → Reg → BitVec 13 → Instr} {cond : Word → Word → Bool}
    {p : Word → Word → Prop}
    (hdecode : ∀ iw, funct3Of iw = BitVec.ofNat 3 funct3 →
      decodeBranch iw = .ok (mk (rs1Of iw) (rs2Of iw) (immBOf iw)))
    (hexec : ∀ rs1 rs2 imm s, exec (mk rs1 rs2 imm) s = branchOp (cond (s.readReg rs1) (s.readReg rs2)) imm s)
    (hcond : ∀ x y, cond x y = true ↔ p x y) : BranchRule funct3 mk p := by
  refine ⟨fun iw hop h3 => ?_, fun rs1 rs2 imm s => ?_⟩
  · rw [decodeWord_of_opBranch hop, hdecode iw (extractBits_eq_of_field h3), rs1Of_eq_regField, rs2Of_eq_regField,
      immBOf_eq_branchField]
  · rw [hexec]
    by_cases hp : p (s.readReg rs1) (s.readReg rs2)
    · rw [branchOp_of_holds (hcond _ _) hp]
      exact ⟨_, rfl, fun _ => ⟨isMod_add_imm13 s.pc imm, rfl⟩, fun hnot => absurd hp hnot,
        fun _ => rfl, fun _ => rfl, rfl, rfl, rfl, rfl, rfl⟩
    · rw [branchOp_of_fails (hcond _ _) hp]
      exact ⟨_, rfl, fun hyes => absurd hyes hp, fun _ => ⟨isMod_next s.pc, rfl⟩,
        fun _ => rfl, fun _ => rfl, rfl, rfl, rfl, rfl, rfl⟩

end Sys2Proof.Says
end

section
/-! SUPPORT. The branch executor's selection, one equation per row of R66, the meanings through `branchOp`, and BEQ's relation
bit by bit. -/

namespace Sys2Proof.Machine

section Selection
variable {iw : InstrWord}

theorem decodeBranch_beq (h3 : funct3Of iw = 0) : decodeBranch iw = .ok (.beq (rs1Of iw) (rs2Of iw) (immBOf iw)) := by
  simp [decodeBranch, h3]

theorem decodeBranch_bne (h3 : funct3Of iw = 1) : decodeBranch iw = .ok (.bne (rs1Of iw) (rs2Of iw) (immBOf iw)) := by
  simp [decodeBranch, h3]

theorem decodeBranch_blt (h3 : funct3Of iw = 4) : decodeBranch iw = .ok (.blt (rs1Of iw) (rs2Of iw) (immBOf iw)) := by
  simp [decodeBranch, h3]

theorem decodeBranch_bge (h3 : funct3Of iw = 5) : decodeBranch iw = .ok (.bge (rs1Of iw) (rs2Of iw) (immBOf iw)) := by
  simp [decodeBranch, h3]

theorem decodeBranch_bltu (h3 : funct3Of iw = 6) : decodeBranch iw = .ok (.bltu (rs1Of iw) (rs2Of iw) (immBOf iw)) := by
  simp [decodeBranch, h3]

theorem decodeBranch_bgeu (h3 : funct3Of iw = 7) : decodeBranch iw = .ok (.bgeu (rs1Of iw) (rs2Of iw) (immBOf iw)) := by
  simp [decodeBranch, h3]

end Selection

section Meaning
variable (rs1 rs2 : Reg) (imm : BitVec 13) (s : State)

theorem exec_beq : exec (.beq rs1 rs2 imm) s = branchOp (condEq (s.readReg rs1) (s.readReg rs2)) imm s := rfl
theorem exec_bne : exec (.bne rs1 rs2 imm) s = branchOp (condNe (s.readReg rs1) (s.readReg rs2)) imm s := rfl
theorem exec_blt : exec (.blt rs1 rs2 imm) s = branchOp (condLt (s.readReg rs1) (s.readReg rs2)) imm s := rfl
theorem exec_bge : exec (.bge rs1 rs2 imm) s = branchOp (condGe (s.readReg rs1) (s.readReg rs2)) imm s := rfl
theorem exec_bltu : exec (.bltu rs1 rs2 imm) s = branchOp (condLtu (s.readReg rs1) (s.readReg rs2)) imm s := rfl
theorem exec_bgeu : exec (.bgeu rs1 rs2 imm) s = branchOp (condGeu (s.readReg rs1) (s.readReg rs2)) imm s := rfl

end Meaning

/-- R136: two registers are equal when all 64 bits agree. -/
theorem condEq_iff_bits (x y : Word) : condEq x y = true ↔ ∀ i, i < 64 → x.getLsbD i = y.getLsbD i :=
  condEq_iff.trans BitVec.eq_of_getLsbD_eq_iff

end Sys2Proof.Machine
end

section
/-! PROOFS. The statements of 45_branches.md. -/

namespace Sys2Proof.Proofs

open Sys2Proof.Machine Sys2Proof.Says

/-- Settles O29: the rule of a branch at equality, which is agreement of all 64 bits. -/
theorem beqBranchesOnEqual : Obligations.BeqBranchesOnEqual :=
  branchRule_of_branchOp (fun _ => decodeBranch_beq) exec_beq condEq_iff_bits

/-- Settles O30: the rule of a branch at inequality. -/
theorem bneBranchesOnNotEqual : Obligations.BneBranchesOnNotEqual :=
  branchRule_of_branchOp (fun _ => decodeBranch_bne) exec_bne fun _ _ => condNe_iff

/-- Settles O31: the rule of a branch at the order of the two's-complement integers. -/
theorem bltBranchesOnSignedLess : Obligations.BltBranchesOnSignedLess :=
  branchRule_of_branchOp (fun _ => decodeBranch_blt) exec_blt fun _ _ => condLt_iff

/-- Settles O32: the rule of a branch at the reversed order of the two's-complement integers, equal operands included. -/
theorem bgeBranchesOnSignedGreaterOrEqual : Obligations.BgeBranchesOnSignedGreaterOrEqual :=
  branchRule_of_branchOp (fun _ => decodeBranch_bge) exec_bge fun _ _ => condGe_iff

/-- Settles O33: the rule of a branch at the order of the unsigned values. -/
theorem bltuBranchesOnUnsignedLess : Obligations.BltuBranchesOnUnsignedLess :=
  branchRule_of_branchOp (fun _ => decodeBranch_bltu) exec_bltu fun _ _ => condLtu_iff

/-- Settles O34: the rule of a branch at the reversed order of the unsigned values, equal operands included. -/
theorem bgeuBranchesOnUnsignedGreaterOrEqual : Obligations.BgeuBranchesOnUnsignedGreaterOrEqual :=
  branchRule_of_branchOp (fun _ => decodeBranch_bgeu) exec_bgeu fun _ _ => condGeu_iff

end Sys2Proof.Proofs
end

section
/-! SUPPORT. The words of JAL as the numbers the statements give (R59, R63, R66). -/

namespace Sys2Proof.Says

open Sys2Proof.Machine

/-- R63: opcode 0x6F selects the UJ executor, since it is none of the six opcodes tested before it. -/
theorem decodeWord_of_opJal {iw : InstrWord} (h : field iw 0 7 = 0x6F) : decodeWord iw = decodeJal iw := by
  have hop : opcodeOf iw = opJal := extractBits_eq_of_field h
  rw [decodeWord, hop]
  rfl

theorem immJOf_eq_jumpField (iw : InstrWord) : immJOf iw = BitVec.ofNat 21 (jumpField iw) := by
  rw [← immJOf_toNat, BitVec.ofNat_toNat, BitVec.setWidth_eq]

/-- R66: the UJ executor looks at no other bits; its operands are the numbers the statement names. -/
theorem decodeJal_eq_fields (iw : InstrWord) :
    decodeJal iw = .ok (.jal (regField iw 7) (BitVec.ofNat 21 (jumpField iw))) := by
  rw [decodeJal, rdOf_eq_regField, immJOf_eq_jumpField]

end Sys2Proof.Says
end

section
/-! SUPPORT. The meaning of JAL through the register write and `retire` (R150). -/

namespace Sys2Proof.Machine

/-- R150: JAL writes its link and retires as a jump, whatever the operands and the state. -/
theorem exec_jal (rd : Reg) (imm : BitVec 21) (s : State) :
    exec (.jal rd imm) s = .next ((s.writeReg rd s.pc.next).retire .jump (s.pc + imm21 imm)) := rfl

end Sys2Proof.Machine
end

section
/-! PROOFS. The statements of 46_jal.md. -/

namespace Sys2Proof.Proofs

open Sys2Proof.Machine Sys2Proof.Says

/-- Settles O36: the link is the next sequential pc, written through the register rule, and the target is the wrapped sum; a
register write followed by `retire` reaches nothing else but the pc and `cnt.jump`. -/
theorem jalLinksAndJumps : Obligations.JalLinksAndJumps := by
  refine ⟨fun iw hop => ?_, fun rd imm s => ?_⟩
  · rw [decodeWord_of_opJal hop, decodeJal_eq_fields]
  · have hlink := onlyRegWritten_writeReg_retire (rd := rd) (result := fun v => IsMod v (s.pc.toNat + 4))
      (isMod_next s.pc) s .jump (s.pc + imm21 imm)
    exact ⟨_, exec_jal rd imm s, hlink, isMod_add_imm21 s.pc imm, rfl, fun _ => rfl, rfl, rfl, rfl, rfl, rfl⟩

end Sys2Proof.Proofs
end

section
/-! SUPPORT. The running step whose fetch does not answer (R37, R162). -/

namespace Sys2Proof.Machine

theorem step_of_no_fetch {s : State} (hr : s.run = .running) (h : s.pc ≠ s.plat.sentinel) (hf : fetch s = none) :
    step s = .fault (.memoryViolation .fetch s.pc) := by
  rw [step_of_running hr h, hf]

end Sys2Proof.Machine
end

section
/-! SUPPORT. What the counters reach (R167): the same operation, instruction or dispatch on two states that differ in the
counters answers alike but for the counters. -/

namespace Sys2Proof.Says

open Sys2Proof.Machine

section OtherCounters
variable (s : State) (c : Counters)

theorem arithOp_withoutCounters (rd : Reg) (v : Word) :
    withoutCounters (arithOp rd v { s with cnt := c }) = withoutCounters (arithOp rd v s) := rfl

theorem loadOp_withoutCounters (n : Nat) (e : Word → Word) (rd rs1 : Reg) (imm : BitVec 12) :
    withoutCounters (loadOp n e rd rs1 imm { s with cnt := c }) = withoutCounters (loadOp n e rd rs1 imm s) := by
  rw [loadOp_eq, loadOp_eq, apply_ite withoutCounters, apply_ite withoutCounters]
  rfl

theorem storeOp_withoutCounters (n : Nat) (rs2 rs1 : Reg) (imm : BitVec 12) :
    withoutCounters (storeOp n rs2 rs1 imm { s with cnt := c }) = withoutCounters (storeOp n rs2 rs1 imm s) := by
  rw [storeOp_eq, storeOp_eq, apply_ite withoutCounters, apply_ite withoutCounters]
  rfl

theorem branchOp_withoutCounters (cond : Bool) (imm : BitVec 13) :
    withoutCounters (branchOp cond imm { s with cnt := c }) = withoutCounters (branchOp cond imm s) := by
  rw [branchOp_eq, branchOp_eq]
  rfl

/-- No operand of an instruction is read from the counters, so each instruction is its shared operation on the two states. -/
theorem exec_withoutCounters (i : Instr) :
    withoutCounters (exec i { s with cnt := c }) = withoutCounters (exec i s) := by
  cases i with
  | add | sub | mul | sll | srl | sra | divu | and | remu | addi | slli | srli | srai =>
    exact arithOp_withoutCounters s c _ _
  | lb | lh | lw | ld => exact loadOp_withoutCounters s c _ _ _ _ _
  | sb | sh | sw | sd => exact storeOp_withoutCounters s c _ _ _ _
  | beq | bne | blt | bge | bltu | bgeu => exact branchOp_withoutCounters s c _ _
  | jalr | jal => rfl

theorem dispatchWord_withoutCounters (iw : InstrWord) :
    withoutCounters (dispatchWord iw { s with cnt := c }) = withoutCounters (dispatchWord iw s) := by
  cases hd : decodeWord iw with
  | error r =>
    rw [dispatchWord_error hd, dispatchWord_error hd]
    rfl
  | ok i =>
    rw [dispatchWord_ok hd, dispatchWord_ok hd]
    exact exec_withoutCounters s c i

/-- After the fetch the two states differ in the counters alone again, `cnt.total` being one more in both (R163). -/
theorem afterFetch_of_counters (iw : InstrWord) :
    State.afterFetch { s with cnt := c } iw = { s.afterFetch iw with cnt := c.bumpTotal } := rfl

end OtherCounters

end Sys2Proof.Says
end

section
/-! PROOFS. The statements of 50_fetch_dispatch.md. -/

namespace Sys2Proof.Proofs

open Sys2Proof.Machine Sys2Proof.Says

/-- Settles O51: the terminal test, the sentinel test and the fetch do not look at the counters, and the dispatch starts from
two states that still differ in them alone. -/
theorem countersNeverInfluenceExecution : Obligations.CountersNeverInfluenceExecution := by
  intro s c
  by_cases hr : s.run = .running
  · by_cases hs : s.pc = s.plat.sentinel
    · rw [step_of_sentinel (s := { s with cnt := c }) hr hs, step_of_sentinel hr hs]
      rfl
    · cases hf : fetch s with
      | none => rw [step_of_no_fetch (s := { s with cnt := c }) hr hs hf, step_of_no_fetch hr hs hf]
      | some iw =>
        rw [step_of_fetch (s := { s with cnt := c }) hr hs hf, step_of_fetch hr hs hf, afterFetch_of_counters]
        exact dispatchWord_withoutCounters (s.afterFetch iw) c.bumpTotal iw
  · rw [step_of_terminal (s := { s with cnt := c }) hr, step_of_terminal hr]
    rfl

end Sys2Proof.Proofs
end

section
/-! SUPPORT. The fields the decoder tests as the numbers R181 gives, and the record it reports: the kind and the value decide it,
and each of the four kinds carries its own field of the word (R183). -/

namespace Sys2Proof.Says

open Sys2Proof.Machine

section Fields
variable {iw : InstrWord}

theorem extractBits_eq_iff_field {lo n : Nat} {v : BitVec n} : extractBits iw lo n = v ↔ field iw lo n = v.toNat := by
  rw [← extractBits_toNat_eq_field, BitVec.toNat_inj]

theorem opcodeOf_eq_iff {v : BitVec 7} : opcodeOf iw = v ↔ field iw 0 7 = v.toNat := extractBits_eq_iff_field
theorem funct3Of_eq_iff {v : BitVec 3} : funct3Of iw = v ↔ field iw 12 3 = v.toNat := extractBits_eq_iff_field
theorem shamtHiOf_eq_iff {v : BitVec 6} : shamtHiOf iw = v ↔ field iw 26 6 = v.toNat := extractBits_eq_iff_field

/-- A row's funct3 column lists what is left of the eight values after those the executor tests for. -/
theorem funct3_mem_iff_not_mem {rejected tested : List Nat} (h : ∀ k < 8, k ∈ rejected ↔ k ∉ tested) :
    field iw 12 3 ∈ rejected ↔ field iw 12 3 ∉ tested :=
  h _ (Nat.mod_lt _ (by decide))

/-- A bit of the word beside the one-bit field the statements read. -/
theorem getLsbD_cases (iw : InstrWord) (lo : Nat) :
    (iw.getLsbD lo = false ∧ field iw lo 1 = 0) ∨ (iw.getLsbD lo = true ∧ field iw lo 1 = 1) := by
  have hlt : field iw lo 1 < 2 := Nat.mod_lt _ (by decide)
  have hbit : iw.getLsbD lo = decide (field iw lo 1 = 1) := getLsbD_eq_of_field rfl
  rw [hbit, decide_eq_false_iff_not, decide_eq_true_iff]
  omega

theorem funct7Bit5_cases (iw : InstrWord) :
    (funct7Bit5 iw = false ∧ field iw 30 1 = 0) ∨ (funct7Bit5 iw = true ∧ field iw 30 1 = 1) := getLsbD_cases iw 30

theorem funct7Bit0_cases (iw : InstrWord) :
    (funct7Bit0 iw = false ∧ field iw 25 1 = 0) ∨ (funct7Bit0 iw = true ∧ field iw 25 1 = 1) := getLsbD_cases iw 25

/-- R63: opcode 0x67 selects the JALR executor. -/
theorem decodeWord_of_opJalr (h : field iw 0 7 = 0x67) : decodeWord iw = decodeJalr iw := by
  have hop : opcodeOf iw = opJalr := extractBits_eq_of_field h
  rw [decodeWord, hop]
  rfl

/-- R63: a word with none of the seven opcodes selects no executor. -/
theorem decodeWord_of_no_opcode (h : field iw 0 7 ∉ [0x33, 0x13, 0x03, 0x67, 0x23, 0x63, 0x6F]) :
    decodeWord iw = .error (.opcode (opcodeOf iw)) := by
  simp only [List.mem_cons, List.not_mem_nil, or_false, not_or] at h
  obtain ⟨hR, hI, hL, hJalr, hS, hB, hJal⟩ := h
  rw [decodeWord, if_neg (mt opcodeOf_eq_iff.mp hR), if_neg (mt opcodeOf_eq_iff.mp hI), if_neg (mt opcodeOf_eq_iff.mp hL),
    if_neg (mt opcodeOf_eq_iff.mp hJalr), if_neg (mt opcodeOf_eq_iff.mp hS), if_neg (mt opcodeOf_eq_iff.mp hB),
    if_neg (mt opcodeOf_eq_iff.mp hJal)]

end Fields

section Records
variable {iw : InstrWord} {q r : Unsupported}

/-- R183: a record is its kind and the value of its field. -/
theorem unsupported_eq_iff : q = r ↔ r.kind = q.kind ∧ r.value = q.value := by
  cases q <;> cases r <;> simp [Unsupported.kind, Unsupported.value, BitVec.toNat_inj, eq_comm]

theorem opcode_eq_iff : Unsupported.opcode (opcodeOf iw) = r ↔ r.kind = .opcode ∧ r.value = field iw 0 7 :=
  extractBits_toNat_eq_field iw 0 7 ▸ unsupported_eq_iff

theorem funct3_eq_iff : Unsupported.funct3 (funct3Of iw) = r ↔ r.kind = .funct3 ∧ r.value = field iw 12 3 :=
  extractBits_toNat_eq_field iw 12 3 ▸ unsupported_eq_iff

theorem funct7_eq_iff : Unsupported.funct7 (funct7Of iw) = r ↔ r.kind = .funct7 ∧ r.value = field iw 25 7 :=
  extractBits_toNat_eq_field iw 25 7 ▸ unsupported_eq_iff

theorem shamtHi_eq_iff : Unsupported.shamtHi (shamtHiOf iw) = r ↔ r.kind = .shamtHi ∧ r.value = field iw 26 6 :=
  extractBits_toNat_eq_field iw 26 6 ▸ unsupported_eq_iff

/-- A selection whose next row answers an instruction raises exactly when that row is not taken and the rest raises. -/
theorem ite_ok_eq_error_iff {c : Prop} [Decidable c] {i : Instr} {d : Except Unsupported Instr} :
    (if c then .ok i else d) = .error r ↔ ¬c ∧ d = .error r := by
  simp [ite_eq_iff]

end Records

end Sys2Proof.Says
end

section
/-! SUPPORT. Each executor reports exactly the rows of R181 with its opcode (R63 to R66). -/

namespace Sys2Proof.Says

open Sys2Proof.Machine

section Executors
variable {iw : InstrWord} {r : Unsupported}

/-- R64, for a funct3 it lists: the table of the four funct3 values and the four pairs, entry by entry. -/
theorem decodeR_of_listed_funct3 (h3 : field iw 12 3 ∈ [0, 1, 5, 7]) :
    (SupportedPair (field iw 12 3) (field iw 30 1) (field iw 25 1) ∧ ∃ i, decodeR iw = .ok i) ∨
      (¬SupportedPair (field iw 12 3) (field iw 30 1) (field iw 25 1) ∧ decodeR iw = .error (.funct7 (funct7Of iw))) := by
  simp only [List.mem_cons, List.not_mem_nil, or_false] at h3
  obtain h3 | h3 | h3 | h3 := h3 <;>
    obtain ⟨h5, h30⟩ | ⟨h5, h30⟩ := funct7Bit5_cases iw <;>
      obtain ⟨h0, h25⟩ | ⟨h0, h25⟩ := funct7Bit0_cases iw <;>
        simp [decodeR, funct3Of_eq_iff, SupportedPair, h3, h5, h0, h30, h25]

/-- Rows 2 and 3 of R181. -/
theorem decodeR_error_iff (h : field iw 0 7 = 0x33) : decodeR iw = .error r ↔ Raises iw r.kind r.value := by
  have hrow : field iw 12 3 ∈ [2, 3, 4, 6] ↔ field iw 12 3 ∉ [0, 1, 5, 7] := funct3_mem_iff_not_mem (by decide)
  by_cases h3 : field iw 12 3 ∈ [0, 1, 5, 7]
  · obtain ⟨hpair, i, hd⟩ | ⟨hpair, hd⟩ := decodeR_of_listed_funct3 h3
    · simp [Raises, h, hrow, h3, hpair, hd]
    · simp [Raises, h, hrow, h3, hpair, hd, funct7_eq_iff]
  · have hd : decodeR iw = .error (.funct3 (funct3Of iw)) := by
      simp_all [decodeR, funct3Of_eq_iff]
    simp [Raises, h, hrow, h3, hd, funct3_eq_iff]

/-- Rows 4 to 6 of R181. -/
theorem decodeIArith_error_iff (h : field iw 0 7 = 0x13) : decodeIArith iw = .error r ↔ Raises iw r.kind r.value := by
  have hrow : field iw 12 3 ∈ [2, 3, 4, 6, 7] ↔ field iw 12 3 ∉ [0, 1, 5] := funct3_mem_iff_not_mem (by decide)
  by_cases h0 : field iw 12 3 = 0
  · simp [decodeIArith, funct3Of_eq_iff, Raises, h, h0]
  by_cases h1 : field iw 12 3 = 1
  · simp [decodeIArith, funct3Of_eq_iff, shamtHiOf_eq_iff, ite_ok_eq_error_iff, shamtHi_eq_iff, Raises, h, h1]
  by_cases h5 : field iw 12 3 = 5
  · simp [decodeIArith, funct3Of_eq_iff, shamtHiOf_eq_iff, ite_ok_eq_error_iff, shamtHi_eq_iff, Raises, h, h5, and_assoc]
  · simp [decodeIArith, funct3Of_eq_iff, funct3_eq_iff, Raises, h, hrow, h0, h1, h5]

/-- Row 7 of R181. -/
theorem decodeLoad_error_iff (h : field iw 0 7 = 0x03) : decodeLoad iw = .error r ↔ Raises iw r.kind r.value := by
  have hrow : field iw 12 3 ∈ [4, 5, 6, 7] ↔ field iw 12 3 ∉ [0, 1, 2, 3] := funct3_mem_iff_not_mem (by decide)
  simp [Raises, h, hrow, decodeLoad, ite_ok_eq_error_iff, funct3Of_eq_iff, funct3_eq_iff, and_assoc]

/-- Row 8 of R181. -/
theorem decodeStore_error_iff (h : field iw 0 7 = 0x23) : decodeStore iw = .error r ↔ Raises iw r.kind r.value := by
  have hrow : field iw 12 3 ∈ [4, 5, 6, 7] ↔ field iw 12 3 ∉ [0, 1, 2, 3] := funct3_mem_iff_not_mem (by decide)
  simp [Raises, h, hrow, decodeStore, ite_ok_eq_error_iff, funct3Of_eq_iff, funct3_eq_iff, and_assoc]

/-- Row 9 of R181. -/
theorem decodeBranch_error_iff (h : field iw 0 7 = 0x63) : decodeBranch iw = .error r ↔ Raises iw r.kind r.value := by
  have hrow : field iw 12 3 ∈ [2, 3] ↔ field iw 12 3 ∉ [0, 1, 4, 5, 6, 7] := funct3_mem_iff_not_mem (by decide)
  simp [Raises, h, hrow, decodeBranch, ite_ok_eq_error_iff, funct3Of_eq_iff, funct3_eq_iff, and_assoc]

/-- R181: no row names the opcode of JALR or of JAL. -/
theorem not_raises_of_jump {k : FaultKind} {v : Nat} (h : field iw 0 7 = 0x67 ∨ field iw 0 7 = 0x6F) : ¬Raises iw k v := by
  obtain h | h := h <;> simp [Raises, h]

/-- Row 1 of R181 is the only one without an opcode of its own. -/
theorem raises_of_no_opcode {k : FaultKind} {v : Nat} (h : field iw 0 7 ∉ [0x33, 0x13, 0x03, 0x67, 0x23, 0x63, 0x6F]) :
    Raises iw k v ↔ k = .opcode ∧ v = field iw 0 7 := by
  simp_all [Raises]

end Executors

/-- R181: the decoder's opcode dispatch, executor by executor. -/
theorem decodeWord_error_iff (iw : InstrWord) (r : Unsupported) :
    decodeWord iw = .error r ↔ Raises iw r.kind r.value := by
  by_cases hop : field iw 0 7 ∈ [0x33, 0x13, 0x03, 0x67, 0x23, 0x63, 0x6F]
  · simp only [List.mem_cons, List.not_mem_nil, or_false] at hop
    obtain h | h | h | h | h | h | h := hop
    · rw [decodeWord_of_opR h, decodeR_error_iff h]
    · rw [decodeWord_of_opIArith h, decodeIArith_error_iff h]
    · rw [decodeWord_of_opLoad h, decodeLoad_error_iff h]
    · simp [decodeWord_of_opJalr h, decodeJalr, not_raises_of_jump (.inl h)]
    · rw [decodeWord_of_opStore h, decodeStore_error_iff h]
    · rw [decodeWord_of_opBranch h, decodeBranch_error_iff h]
    · simp [decodeWord_of_opJal h, decodeJal, not_raises_of_jump (.inr h)]
  · rw [decodeWord_of_no_opcode hop, Except.error.injEq, opcode_eq_iff, raises_of_no_opcode hop]

/-- R181, R183: a row's kind names the field that is its value. -/
theorem Raises.kind_value {iw : InstrWord} {k : FaultKind} {v : Nat} (h : Raises iw k v) :
    (k = .opcode ∧ v = field iw 0 7) ∨ (k = .funct3 ∧ v = field iw 12 3) ∨ (k = .funct7 ∧ v = field iw 25 7) ∨
      (k = .shamtHi ∧ v = field iw 26 6) := by
  unfold Raises at h
  tauto

/-- R183: what a row of R181 reports is a record. -/
theorem Raises.exists_record {iw : InstrWord} {k : FaultKind} {v : Nat} (h : Raises iw k v) :
    ∃ r : Unsupported, r.kind = k ∧ r.value = v := by
  obtain ⟨rfl, rfl⟩ | ⟨rfl, rfl⟩ | ⟨rfl, rfl⟩ | ⟨rfl, rfl⟩ := h.kind_value
  · exact ⟨_, opcode_eq_iff.mp rfl⟩
  · exact ⟨_, funct3_eq_iff.mp rfl⟩
  · exact ⟨_, funct7_eq_iff.mp rfl⟩
  · exact ⟨_, shamtHi_eq_iff.mp rfl⟩

end Sys2Proof.Says
end

section
/-! PROOFS. The statements of 60_exceptions.md. -/

namespace Sys2Proof.Proofs

open Sys2Proof.Machine Sys2Proof.Says

/-- Settles O6: every executor reports the rows of its opcode, and a word has one cause because the decoder gives it one
answer. -/
theorem wordsOutsideTheTableRaiseTheirCause : Obligations.WordsOutsideTheTableRaiseTheirCause := by
  refine ⟨decodeWord_error_iff, fun iw k k' v v' h h' => ?_, fun iw k v hjump => not_raises_of_jump hjump⟩
  obtain ⟨r, rfl, rfl⟩ := h.exists_record
  obtain ⟨r', rfl, rfl⟩ := h'.exists_record
  have hd := (decodeWord_error_iff iw r).mpr h
  have hd' := (decodeWord_error_iff iw r').mpr h'
  cases hd.symm.trans hd'
  exact ⟨rfl, rfl⟩

end Sys2Proof.Proofs
end

section
/-! SUPPORT. The decoder on the words the encoder gives: each format's word goes to its executor (R63), which finds the fields the
encoder wrote. -/

namespace Sys2Proof

open Sys2Proof.Says

section Dispatch
variable (funct7 : BitVec 7) (rs2 rs1 rd : Reg) (funct3 : BitVec 3) (hi shamt : BitVec 6)

theorem decodeWord_encR : decodeWord (encR funct7 rs2 rs1 funct3 rd opR) = decodeR (encR funct7 rs2 rs1 funct3 rd opR) :=
  decodeWord_of_opR (opcodeOf_eq_iff.mp (opcodeOf_encR ..))

theorem decodeWord_encI_opIArith (imm : BitVec 12) :
    decodeWord (encI imm rs1 funct3 rd opIArith) = decodeIArith (encI imm rs1 funct3 rd opIArith) :=
  Machine.decodeWord_of_opIArith (opcodeOf_eq_iff.mp (opcodeOf_encI ..))

theorem decodeWord_encShift :
    decodeWord (encShift hi shamt rs1 funct3 rd opIArith) = decodeIArith (encShift hi shamt rs1 funct3 rd opIArith) :=
  Machine.decodeWord_of_opIArith (opcodeOf_eq_iff.mp (opcodeOf_encShift ..))

theorem decodeWord_encI_opLoad (imm : BitVec 12) :
    decodeWord (encI imm rs1 funct3 rd opLoad) = decodeLoad (encI imm rs1 funct3 rd opLoad) :=
  decodeWord_of_opLoad (opcodeOf_eq_iff.mp (opcodeOf_encI ..))

theorem decodeWord_encI_opJalr (imm : BitVec 12) :
    decodeWord (encI imm rs1 funct3 rd opJalr) = decodeJalr (encI imm rs1 funct3 rd opJalr) :=
  decodeWord_of_opJalr (opcodeOf_eq_iff.mp (opcodeOf_encI ..))

theorem decodeWord_encS (imm : BitVec 12) :
    decodeWord (encS imm rs2 rs1 funct3 opStore) = decodeStore (encS imm rs2 rs1 funct3 opStore) :=
  decodeWord_of_opStore (opcodeOf_eq_iff.mp (opcodeOf_encS ..))

theorem decodeWord_encB (imm : BitVec 13) :
    decodeWord (encB imm rs2 rs1 funct3 opBranch) = decodeBranch (encB imm rs2 rs1 funct3 opBranch) :=
  decodeWord_of_opBranch (opcodeOf_eq_iff.mp (opcodeOf_encB ..))

theorem decodeWord_encJ (imm : BitVec 21) : decodeWord (encJ imm rd opJal) = decodeJal (encJ imm rd opJal) :=
  decodeWord_of_opJal (opcodeOf_eq_iff.mp (opcodeOf_encJ ..))

end Dispatch

/-- R58: a well-formed branch offset has the bit the encoder drops clear. -/
theorem branchOffsetOk_iff {imm : BitVec 13} : branchOffsetOk imm = true ↔ imm[0] = false := by
  rw [branchOffsetOk, Bool.not_eq_true', BitVec.getLsbD_eq_getElem]

/-- R59: a well-formed jump offset has the bit the encoder drops clear. -/
theorem jumpOffsetOk_iff {imm : BitVec 21} : jumpOffsetOk imm = true ↔ imm[0] = false := by
  rw [jumpOffsetOk, Bool.not_eq_true', BitVec.getLsbD_eq_getElem]

/-- The round trip on words, format by format. -/
theorem decodeWord_encode {i : Instr} (h : i.wf = true) : decodeWord (encode i) = .ok i := by
  cases i with
  | add | sub | mul | sll | srl | sra | divu | and | remu => simp [encode, decodeWord_encR, decodeR]
  | addi => simp [encode, decodeWord_encI_opIArith, decodeIArith]
  | slli | srli | srai => simp [encode, decodeWord_encShift, decodeIArith]
  | lb | lh | lw | ld => simp [encode, decodeWord_encI_opLoad, decodeLoad]
  | jalr => simp [encode, decodeWord_encI_opJalr, decodeJalr]
  | sb | sh | sw | sd => simp [encode, decodeWord_encS, decodeStore]
  | beq | bne | blt | bge | bltu | bgeu =>
    have heven := branchOffsetOk_iff.mp h
    simp [encode, decodeWord_encB, decodeBranch, heven]
  | jal =>
    have heven := jumpOffsetOk_iff.mp h
    simp [encode, decodeWord_encJ, decodeJal, heven]

end Sys2Proof
end

section
/-! PROOFS. The round trip of 30_encoding.md, from the instruction. -/

namespace Sys2Proof.Proofs

/-- Settles O1: decoding bytes is decoding their word, and the word decodes to the instruction it encodes. -/
theorem decodingAnEncodedInstructionGivesItBack : Obligations.DecodingAnEncodedInstructionGivesItBack := by
  intro i hwf rest
  rw [encodeBytes, decode_bytesOfWord, decodeWord_encode hwf]

end Sys2Proof.Proofs
end

section
/-! SUPPORT. What `cache_en` and the cache reach (R19, D32): an instruction or a dispatch on a state with other values in these
two fields answers what it answers on the state itself, with those values. -/

namespace Sys2Proof.Machine

open Sys2Proof.Says

/-- The state with these values for `cache_en` and the cache. -/
def State.withCache (s : State) (b : Bool) (c : ICache) : State := { s with cacheEn := b, icache := c }

/-- The outcome with these values for `cache_en` and the cache in its next state. -/
def outcomeWithCache (b : Bool) (c : ICache) (o : StepResult) : StepResult :=
  match o with
  | .next t => .next (t.withCache b c)
  | .fault f => .fault f
  | .refused r => .refused r

section OtherCache
variable (s : State) (b : Bool) (c : ICache)

@[simp] theorem withoutCache_outcomeWithCache (o : StepResult) :
    withoutCache (outcomeWithCache b c o) = withoutCache o := by
  cases o <;> rfl

theorem loadOp_withCache (n : Nat) (e : Word → Word) (rd rs1 : Reg) (imm : BitVec 12) :
    loadOp n e rd rs1 imm (s.withCache b c) = outcomeWithCache b c (loadOp n e rd rs1 imm s) := by
  rw [loadOp_eq, loadOp_eq, apply_ite (outcomeWithCache b c)]
  rfl

theorem storeOp_withCache (n : Nat) (rs2 rs1 : Reg) (imm : BitVec 12) :
    storeOp n rs2 rs1 imm (s.withCache b c) = outcomeWithCache b c (storeOp n rs2 rs1 imm s) := by
  rw [storeOp_eq, storeOp_eq, apply_ite (outcomeWithCache b c)]
  rfl

/-- No operand of an instruction is read from the two fields and none of its effects is written there. -/
theorem exec_withCache (i : Instr) : exec i (s.withCache b c) = outcomeWithCache b c (exec i s) := by
  cases i with
  | add | sub | mul | sll | srl | sra | divu | and | remu | addi | slli | srli | srai => rfl
  | lb | lh | lw | ld => exact loadOp_withCache s b c _ _ _ _ _
  | sb | sh | sw | sd => exact storeOp_withCache s b c _ _ _ _
  | beq | bne | blt | bge | bltu | bgeu =>
    exact (branchOp_eq ..).trans (congrArg (outcomeWithCache b c) (branchOp_eq ..)).symm
  | jalr | jal => rfl

theorem dispatchWord_withCache (iw : InstrWord) :
    dispatchWord iw (s.withCache b c) = outcomeWithCache b c (dispatchWord iw s) := by
  cases hd : decodeWord iw with
  | error r =>
    rw [dispatchWord_error hd, dispatchWord_error hd]
    rfl
  | ok i => rw [dispatchWord_ok hd, dispatchWord_ok hd, exec_withCache]

/-- R42: the fetch reads memory at the pc whatever the two fields hold. -/
theorem fetch_withCache : fetch (s.withCache b c) = fetch s := by
  rw [fetch_eq_directRead, fetch_eq_directRead]
  rfl

/-- After the fetch the two states differ in the two fields alone again. -/
theorem afterFetch_withCache (iw : InstrWord) :
    (s.withCache b c).afterFetch iw =
      (s.afterFetch iw).withCache b (if b then Config.icacheAfterLookup c s.pc iw else c) := rfl

/-- D32: the terminal test, the sentinel test and the fetch do not look at the two fields, and the dispatch starts from two states
that differ in them alone. -/
theorem step_withoutCache : withoutCache (step (s.withCache b c)) = withoutCache (step s) := by
  by_cases hr : s.run = .running
  · by_cases hs : s.pc = s.plat.sentinel
    · rw [step_of_sentinel (s := s.withCache b c) hr hs, step_of_sentinel hr hs]
      rfl
    · cases hf : fetch s with
      | none =>
        have hf' := (fetch_withCache s b c).trans hf
        rw [step_of_no_fetch (s := s.withCache b c) hr hs hf', step_of_no_fetch hr hs hf]
        rfl
      | some iw =>
        have hf' := (fetch_withCache s b c).trans hf
        rw [step_of_fetch (s := s.withCache b c) hr hs hf', step_of_fetch hr hs hf, afterFetch_withCache,
          dispatchWord_withCache, withoutCache_outcomeWithCache]
  · rw [step_of_terminal (s := s.withCache b c) hr, step_of_terminal hr]
    rfl

end OtherCache

end Sys2Proof.Machine
end

section
/-! PROOFS. The cache does not matter: 50_fetch_dispatch.md, 20_memory.md section 7. -/

namespace Sys2Proof.Proofs

open Sys2Proof.Machine Sys2Proof.Says

/-- Settles O50: both fetch paths are the direct read, and nothing else of a step looks at `cache_en` or the cache. -/
theorem theCacheNeverChangesWhatAStepDoes : Obligations.TheCacheNeverChangesWhatAStepDoes :=
  fun s b c => ⟨fetch_eq_directRead _, step_withoutCache s b c⟩

end Sys2Proof.Proofs
end

section
/-! SUPPORT. What every completed instruction keeps: the frame of its two shapes, and the representation. -/

namespace Sys2Proof.Machine

section Frame
variable {s t : State}

/-- R165: a completed instruction adds to one category counter and leaves the run state, the record, the cache and the platform
alone. -/
theorem Completes.frame (h : Completes s t) :
    (∃ c, t.cnt = s.cnt.bump c) ∧ t.run = s.run ∧ t.fault = s.fault ∧ t.cacheEn = s.cacheEn ∧ t.plat = s.plat := by
  cases h with
  | register rd v c npc h => subst h; exact ⟨⟨c, rfl⟩, rfl, rfl, rfl, rfl⟩
  | memory a n v npc hn hmap h => subst h; exact ⟨⟨.store, rfl⟩, rfl, rfl, rfl, rfl⟩

/-- Both shapes keep memory canonical: the first does not touch it, the second stores bytes. -/
theorem Completes.wf_mem (h : Completes s t) (hwf : Memory.wf s.mem = true) : Memory.wf t.mem = true := by
  cases h with
  | register rd v c npc h => subst h; exact hwf
  | memory a n v npc hn hmap h => subst h; exact wf_storeBytes hwf a n v

/-- No shape reaches the storage of register 0. -/
theorem Completes.slot_zero (h : Completes s t) : t.regs[0] = s.regs[0] := by
  cases h with
  | register rd v c npc h => subst h; exact slot_zero_writeReg s rd v
  | memory a n v npc hn hmap h => subst h; rfl

theorem Completes.inv (h : Completes s t) (hs : s.Inv) : t.Inv := by
  obtain ⟨hwf, hrecord, hslot⟩ := hs
  obtain ⟨-, hrun, hfault, -, -⟩ := h.frame
  exact ⟨h.wf_mem hwf, by rwa [hrun, hfault], h.slot_zero.trans hslot⟩

end Frame

end Sys2Proof.Machine
end

section
/-! PROOFS. What every step keeps: 10_state.md sections 2 and 5. -/

namespace Sys2Proof.Proofs

open Sys2Proof.Machine Sys2Proof.Says

/-- Settles O52: the four things a step can do; the sentinel and a raise change only the run state and the record, together. -/
theorem stepKeepsTheInvariant : Obligations.StepKeepsTheInvariant := by
  intro s t hs h
  obtain ⟨hwf, hrecord, hslot⟩ := hs
  cases step_next h with
  | terminal hr ht => subst ht; exact ⟨⟨hwf, hrecord, hslot⟩, rfl, rfl⟩
  | sentinel hr hpc ht =>
    subst ht
    have hnone : ¬s.fault.isSome = true := mt hrecord.mp (by rw [hr]; decide)
    exact ⟨⟨hwf, iff_of_false hnone (by simp), hslot⟩, rfl, rfl⟩
  | raised hr hpc iw hf r hd ht =>
    subst ht
    exact ⟨⟨hwf, iff_of_true rfl rfl, hslot⟩, rfl, rfl⟩
  | executed hr hpc iw hf i hd hexec =>
    have hdone := exec_next hexec
    obtain ⟨-, -, -, hcache, hplat⟩ := hdone.frame
    exact ⟨hdone.inv ⟨hwf, hrecord, hslot⟩, hcache, hplat⟩

/-- Settles O53: the total goes up by one with the word; then either one category does too, or the run is FAULTED. -/
theorem stepKeepsTheCountersInBalance : Obligations.StepKeepsTheCountersInBalance := by
  intro s t hs h
  cases step_next h with
  | terminal hr ht => subst ht; exact hs
  | sentinel hr hpc ht =>
    subst ht
    simpa [State.CountersBalance, hr] using hs
  | raised hr hpc iw hf r hd ht =>
    subst ht
    simpa [State.CountersBalance, hr] using hs
  | executed hr hpc iw hf i hd hexec =>
    obtain ⟨⟨c, hcnt⟩, hrun, -, -, -⟩ := (exec_next hexec).frame
    simpa [State.CountersBalance, hcnt, hrun, hr, categories_bump] using hs

end Sys2Proof.Proofs
end

section
/-! PROOFS. The laws of sign extension: 00_scope.md section 5. -/

namespace Sys2Proof.Proofs

open Sys2Proof.Machine Sys2Proof.Says

/-- Settles O5: `sext` reads as `signed` on its low bits, which it keeps, and `signed` is the number itself below the sign bit. -/
theorem signExtensionLaws : Obligations.SignExtensionLaws := by
  intro w v hpos hle
  have hread : s64 (sext w v) = signed w v.toNat := by
    rw [s64_eq_toInt, sext_toInt hle, ← signed_toNat hpos, BitVec.toNat_setWidth, signed_mod]
  refine ⟨hread, sext_congr (setWidth_sext hle v), fun hlt => BitVec.eq_of_toInt_eq ?_⟩
  have hw : v.toNat % 2 ^ w = v.toNat :=
    Nat.mod_eq_of_lt (hlt.trans_le (Nat.pow_le_pow_right (by decide) (Nat.sub_le w 1)))
  have h64 : 2 * v.toNat < 2 ^ 64 :=
    calc 2 * v.toNat < 2 * 2 ^ (w - 1) := Nat.mul_lt_mul_of_pos_left hlt (by decide)
      _ = 2 ^ w := mul_pow_sub_one (Nat.ne_of_gt hpos) 2
      _ ≤ 2 ^ 64 := Nat.pow_le_pow_right (by decide) hle
  rw [← s64_eq_toInt, hread, signed, hw, if_pos hlt, BitVec.toInt_eq_toNat_of_lt h64]

end Sys2Proof.Proofs
end

section
/-! SUPPORT. The values the R executor writes, in the statements' arithmetic (R83 to R89). -/

namespace Sys2Proof.Says

open Sys2Proof.Machine

/-- R84: a left shift multiplies, modulo 2^64. -/
theorem u64_shiftLeft (x : Word) (k : Nat) : u64 (x <<< k) = u64 x * 2 ^ k % 2 ^ 64 := by
  rw [u64, BitVec.toNat_shiftLeft, Nat.shiftLeft_eq, u64]

/-- R85: a right shift with zeros divides. -/
theorem u64_shiftRight (x : Word) (k : Nat) : u64 (x >>> k) = u64 x / 2 ^ k := by
  rw [u64, BitVec.toNat_ushiftRight, Nat.shiftRight_eq_div_pow, u64]

/-- R86: a right shift with the sign is the floor of the signed quotient. -/
theorem isMod_sshiftRight (x : Word) (k : Nat) : IsMod (x.sshiftRight k) (s64 x / (2 ^ k : Nat)) := by
  have hfloor : (x.sshiftRight k).toInt = s64 x / (2 ^ k : Nat) := by
    rw [sshiftRight_toInt, s64_eq_toInt, Nat.cast_pow, Nat.cast_ofNat]
  exact hfloor ▸ isMod_toInt _

/-- R87: the quotient fits in 64 bits, being at most the dividend. -/
theorem u64_divuResult (x y : Word) : u64 (divuResult x y) = if y = 0 then 2 ^ 64 - 1 else u64 x / u64 y := by
  have hfits : x.toNat / y.toNat < 2 ^ 64 := (Nat.div_le_self _ _).trans_lt x.isLt
  rw [divuResult, apply_ite u64, u64, u64, BitVec.toNat_allOnes, BitVec.toNat_ofNat, Nat.mod_eq_of_lt hfits, u64, u64]

/-- R89: the remainder fits in 64 bits, being at most the dividend. -/
theorem u64_remuResult (x y : Word) : u64 (remuResult x y) = if y = 0 then u64 x else u64 x % u64 y := by
  have hfits : x.toNat % y.toNat < 2 ^ 64 := (Nat.mod_le _ _).trans_lt x.isLt
  rw [remuResult, apply_ite u64, u64, u64, BitVec.toNat_ofNat, Nat.mod_eq_of_lt hfits, u64]

end Sys2Proof.Says
end

section
/-! SUPPORT. The other rows of the R executor's selection (R64), and their meanings through `arithOp`. -/

namespace Sys2Proof.Machine

section Selection
variable {iw : InstrWord}

theorem decodeR_mul (h3 : funct3Of iw = 0) (h5 : funct7Bit5 iw = false) (h0 : funct7Bit0 iw = true) :
    decodeR iw = .ok (.mul (rdOf iw) (rs1Of iw) (rs2Of iw)) := by
  simp [decodeR, h3, h5, h0]

theorem decodeR_sll (h3 : funct3Of iw = 1) (h5 : funct7Bit5 iw = false) (h0 : funct7Bit0 iw = false) :
    decodeR iw = .ok (.sll (rdOf iw) (rs1Of iw) (rs2Of iw)) := by
  simp [decodeR, h3, h5, h0]

theorem decodeR_srl (h3 : funct3Of iw = 5) (h5 : funct7Bit5 iw = false) (h0 : funct7Bit0 iw = false) :
    decodeR iw = .ok (.srl (rdOf iw) (rs1Of iw) (rs2Of iw)) := by
  simp [decodeR, h3, h5, h0]

theorem decodeR_sra (h3 : funct3Of iw = 5) (h5 : funct7Bit5 iw = true) (h0 : funct7Bit0 iw = false) :
    decodeR iw = .ok (.sra (rdOf iw) (rs1Of iw) (rs2Of iw)) := by
  simp [decodeR, h3, h5, h0]

theorem decodeR_divu (h3 : funct3Of iw = 5) (h5 : funct7Bit5 iw = false) (h0 : funct7Bit0 iw = true) :
    decodeR iw = .ok (.divu (rdOf iw) (rs1Of iw) (rs2Of iw)) := by
  simp [decodeR, h3, h5, h0]

theorem decodeR_remu (h3 : funct3Of iw = 7) (h5 : funct7Bit5 iw = false) (h0 : funct7Bit0 iw = true) :
    decodeR iw = .ok (.remu (rdOf iw) (rs1Of iw) (rs2Of iw)) := by
  simp [decodeR, h3, h5, h0]

end Selection

section Meaning
variable (rd rs1 rs2 : Reg) (s : State)

theorem exec_mul : exec (.mul rd rs1 rs2) s = arithOp rd (s.readReg rs1 * s.readReg rs2) s := rfl
theorem exec_sll : exec (.sll rd rs1 rs2) s = arithOp rd (s.readReg rs1 <<< ((s.readReg rs2).toNat % 64)) s := rfl
theorem exec_srl : exec (.srl rd rs1 rs2) s = arithOp rd (s.readReg rs1 >>> ((s.readReg rs2).toNat % 64)) s := rfl
theorem exec_sra :
    exec (.sra rd rs1 rs2) s = arithOp rd ((s.readReg rs1).sshiftRight ((s.readReg rs2).toNat % 64)) s := rfl
theorem exec_divu : exec (.divu rd rs1 rs2) s = arithOp rd (divuResult (s.readReg rs1) (s.readReg rs2)) s := rfl
theorem exec_remu : exec (.remu rd rs1 rs2) s = arithOp rd (remuResult (s.readReg rs1) (s.readReg rs2)) s := rfl

end Meaning

end Sys2Proof.Machine
end

section
/-! PROOFS. The other statements of 40_r_type.md. -/

namespace Sys2Proof.Proofs

open Sys2Proof.Machine Sys2Proof.Says

/-- Settles O9: the product of two bit vectors is the product of their numbers modulo 2^64. -/
theorem mulWritesTheLow64BitsOfTheProduct : Obligations.MulWritesTheLow64BitsOfTheProduct :=
  rRule_of_arithOp (fun _ => decodeR_mul) exec_mul BitVec.toNat_mul

/-- Settles O10: a left shift by the low six bits multiplies by a power of two, modulo 2^64. -/
theorem sllShiftsByTheLowSixBits : Obligations.SllShiftsByTheLowSixBits :=
  rRule_of_arithOp (op := fun x y => x <<< (y.toNat % 64)) (fun _ => decodeR_sll) exec_sll fun x _ => u64_shiftLeft x _

/-- Settles O11: a right shift with zeros divides the number. -/
theorem srlShiftsInZeros : Obligations.SrlShiftsInZeros :=
  rRule_of_arithOp (op := fun x y => x >>> (y.toNat % 64)) (fun _ => decodeR_srl) exec_srl fun x _ => u64_shiftRight x _

/-- Settles O12: a right shift with the sign is the floor of the signed quotient. -/
theorem sraShiftsInTheSign : Obligations.SraShiftsInTheSign :=
  rRule_of_arithOp (op := fun x y => x.sshiftRight (y.toNat % 64)) (fun _ => decodeR_sra) exec_sra
    fun x _ => isMod_sshiftRight x _

/-- Settles O13: the quotient of the numbers, with all ones for a zero divisor. -/
theorem divuDividesUnsignedAndByZeroGivesAllOnes : Obligations.DivuDividesUnsignedAndByZeroGivesAllOnes :=
  rRule_of_arithOp (fun _ => decodeR_divu) exec_divu u64_divuResult

/-- Settles O15: the remainder of the numbers, with the dividend for a zero divisor. -/
theorem remuGivesTheUnsignedRemainderAndByZeroTheDividend :
    Obligations.RemuGivesTheUnsignedRemainderAndByZeroTheDividend :=
  rRule_of_arithOp (fun _ => decodeR_remu) exec_remu u64_remuResult

/-- Settles O16: the rules of DIVU and REMU give the quotient and the remainder of the same numbers. -/
theorem quotientAndRemainderRebuildTheDividend : Obligations.QuotientAndRemainderRebuildTheDividend := by
  intro rd rd' rs1 rs2 s t u hrd hrd' hdivisor ht hu
  obtain ⟨t', ht', ⟨hquotient, -, -⟩, -⟩ := divuDividesUnsignedAndByZeroGivesAllOnes.2 rd rs1 rs2 s
  obtain ⟨u', hu', ⟨hremainder, -, -⟩, -⟩ := remuGivesTheUnsignedRemainderAndByZeroTheDividend.2 rd' rs1 rs2 s
  cases ht.symm.trans ht'
  cases hu.symm.trans hu'
  have hq := (hquotient hrd).trans (if_neg hdivisor)
  have hr := (hremainder hrd').trans (if_neg hdivisor)
  have hpos : 0 < u64 (s.readReg rs2) := Nat.pos_of_ne_zero fun h0 => hdivisor (BitVec.eq_of_toNat_eq h0)
  rw [hq, hr]
  exact ⟨(Nat.div_add_mod' _ _).symm, Nat.mod_lt _ hpos⟩

end Sys2Proof.Proofs
end

section
/-! SUPPORT. The rule of a shift by an immediate amount from the I-arithmetic executor's selection and its meaning through
`arithOp` (R61, R65, R100). -/

namespace Sys2Proof.Says

open Sys2Proof.Machine

theorem shamtOf_eq_field (iw : InstrWord) : shamtOf iw = BitVec.ofNat 6 (field iw 20 6) := extractBits_eq_of_field rfl

theorem shiftRule_of_arithOp {funct3 shamtHi : Nat} {mk : Reg → Reg → BitVec 6 → Instr} {op : Word → Nat → Word}
    {result : Word → Nat → Word → Prop}
    (hdecode : ∀ iw, funct3Of iw = BitVec.ofNat 3 funct3 → shamtHiOf iw = BitVec.ofNat 6 shamtHi →
      decodeIArith iw = .ok (mk (rdOf iw) (rs1Of iw) (shamtOf iw)))
    (hexec : ∀ rd rs1 shamt s, exec (mk rd rs1 shamt) s = arithOp rd (op (s.readReg rs1) shamt.toNat) s)
    (hresult : ∀ x k, result x k (op x k)) : ShiftRule funct3 shamtHi mk result := by
  refine ⟨fun iw hop h3 hhi => ?_, fun rd rs1 shamt s => ?_⟩
  · rw [decodeWord_of_opIArith hop, hdecode iw (extractBits_eq_of_field h3) (extractBits_eq_of_field hhi),
      rdOf_eq_regField, rs1Of_eq_regField, shamtOf_eq_field]
  · rw [hexec]
    exact arithOp_arithEffect (hresult _ _) s

end Sys2Proof.Says
end

section
/-! SUPPORT. The I-arithmetic executor's selection of the three shifts (R65), and their meanings through `arithOp`. -/

namespace Sys2Proof.Machine

section Selection
variable {iw : InstrWord}

theorem decodeIArith_slli (h3 : funct3Of iw = 1) (hhi : shamtHiOf iw = 0) :
    decodeIArith iw = .ok (.slli (rdOf iw) (rs1Of iw) (shamtOf iw)) := by
  simp [decodeIArith, h3, hhi]

theorem decodeIArith_srli (h3 : funct3Of iw = 5) (hhi : shamtHiOf iw = 0) :
    decodeIArith iw = .ok (.srli (rdOf iw) (rs1Of iw) (shamtOf iw)) := by
  simp [decodeIArith, h3, hhi]

theorem decodeIArith_srai (h3 : funct3Of iw = 5) (hhi : shamtHiOf iw = 16) :
    decodeIArith iw = .ok (.srai (rdOf iw) (rs1Of iw) (shamtOf iw)) := by
  simp [decodeIArith, h3, hhi]

end Selection

section Meaning
variable (rd rs1 : Reg) (shamt : BitVec 6) (s : State)

theorem exec_slli : exec (.slli rd rs1 shamt) s = arithOp rd (s.readReg rs1 <<< shamt.toNat) s := rfl
theorem exec_srli : exec (.srli rd rs1 shamt) s = arithOp rd (s.readReg rs1 >>> shamt.toNat) s := rfl
theorem exec_srai : exec (.srai rd rs1 shamt) s = arithOp rd ((s.readReg rs1).sshiftRight shamt.toNat) s := rfl

end Meaning

end Sys2Proof.Machine
end

section
/-! PROOFS. The other statements of 41_i_arith.md. -/

namespace Sys2Proof.Proofs

open Sys2Proof.Machine Sys2Proof.Says

/-- Settles O18: the rule of a shift at the left shift. -/
theorem slliShiftsLeftByItsAmount : Obligations.SlliShiftsLeftByItsAmount :=
  shiftRule_of_arithOp (op := fun x k => x <<< k) (fun _ => decodeIArith_slli) exec_slli u64_shiftLeft

/-- Settles O19: the rule of a shift at the right shift with zeros. -/
theorem srliShiftsRightWithZeros : Obligations.SrliShiftsRightWithZeros :=
  shiftRule_of_arithOp (op := fun x k => x >>> k) (fun _ => decodeIArith_srli) exec_srli u64_shiftRight

/-- Settles O20: the rule of a shift at the right shift with the sign. -/
theorem sraiShiftsRightWithTheSign : Obligations.SraiShiftsRightWithTheSign :=
  shiftRule_of_arithOp (fun _ => decodeIArith_srai) exec_srai isMod_sshiftRight

end Sys2Proof.Proofs
end

section
/-! SUPPORT. The load executor's selection of LH and LW (R66), their meanings through `loadOp`, and JALR's meaning (R120). -/

namespace Sys2Proof.Machine

section Selection
variable {iw : InstrWord}

theorem decodeLoad_lh (h3 : funct3Of iw = 1) : decodeLoad iw = .ok (.lh (rdOf iw) (rs1Of iw) (immIOf iw)) := by
  simp [decodeLoad, h3]

theorem decodeLoad_lw (h3 : funct3Of iw = 2) : decodeLoad iw = .ok (.lw (rdOf iw) (rs1Of iw) (immIOf iw)) := by
  simp [decodeLoad, h3]

end Selection

section Meaning
variable (rd rs1 : Reg) (imm : BitVec 12) (s : State)

theorem exec_lh : exec (.lh rd rs1 imm) s = loadOp 2 (sext 16) rd rs1 imm s := rfl
theorem exec_lw : exec (.lw rd rs1 imm) s = loadOp 4 (sext 32) rd rs1 imm s := rfl

/-- R120: JALR retires as a jump to its target and writes no register, whatever `rd` is. -/
theorem exec_jalr : exec (.jalr rd rs1 imm) s = .next (s.retire .jump (s.effAddr rs1 imm)) := rfl

end Meaning

end Sys2Proof.Machine
end

section
/-! PROOFS. The other statements of 42_loads.md, and 43_jalr.md. -/

namespace Sys2Proof.Proofs

open Sys2Proof.Machine Sys2Proof.Says

/-- Settles O22: the rule of a load at two bytes, whose value is extended from 16 bits. -/
theorem lhLoadsTwoBytesSignExtended : Obligations.LhLoadsTwoBytesSignExtended :=
  loadRule_of_loadOp (by decide) (by decide) (fun _ => decodeLoad_lh) exec_lh

/-- Settles O23: the rule of a load at four bytes, whose value is extended from 32 bits. -/
theorem lwLoadsFourBytesSignExtended : Obligations.LwLoadsFourBytesSignExtended :=
  loadRule_of_loadOp (by decide) (by decide) (fun _ => decodeLoad_lw) exec_lw

/-- Settles O35: the executor looks at no funct3, and retiring at the target changes the pc and `cnt.jump` alone. -/
theorem jalrJumpsWithoutLinking : Obligations.JalrJumpsWithoutLinking := by
  refine ⟨fun iw hop => ?_, fun rd rs1 imm s => ?_⟩
  · rw [decodeWord_of_opJalr hop, decodeJalr, rdOf_eq_regField, rs1Of_eq_regField, immIOf_eq_field]
  · exact ⟨_, exec_jalr rd rs1 imm s, isMod_add_imm12 (s.readReg rs1) imm, fun _ => rfl, rfl, fun _ => rfl,
      rfl, rfl, rfl, rfl, rfl⟩

end Sys2Proof.Proofs
end

section
/-! SUPPORT. Each format put together again from the fields of a word (R52): the fields cover the word, so the encoder's formats
give it back; and the fields of a word under a mask. -/

namespace Sys2Proof

section Formats
variable {iw : InstrWord}

theorem encR_fields (iw : InstrWord) :
    encR (funct7Of iw) (rs2Of iw) (rs1Of iw) (funct3Of iw) (rdOf iw) (opcodeOf iw) = iw := by
  have := iw.isLt
  apply BitVec.eq_of_toNat_eq
  simp only [encR_toNat, funct7Of, rs2Of, rs1Of, funct3Of, rdOf, opcodeOf, extractBits_toNat]
  omega

theorem encI_fields (iw : InstrWord) :
    encI (immIOf iw) (rs1Of iw) (funct3Of iw) (rdOf iw) (opcodeOf iw) = iw := by
  have := iw.isLt
  apply BitVec.eq_of_toNat_eq
  simp only [encI_toNat, immIOf, rs1Of, funct3Of, rdOf, opcodeOf, extractBits_toNat]
  omega

theorem encShift_fields (iw : InstrWord) :
    encShift (shamtHiOf iw) (shamtOf iw) (rs1Of iw) (funct3Of iw) (rdOf iw) (opcodeOf iw) = iw := by
  have := iw.isLt
  apply BitVec.eq_of_toNat_eq
  simp only [encShift_toNat, shamtHiOf, shamtOf, rs1Of, funct3Of, rdOf, opcodeOf, extractBits_toNat]
  omega

theorem encS_fields (iw : InstrWord) :
    encS (immSOf iw) (rs2Of iw) (rs1Of iw) (funct3Of iw) (opcodeOf iw) = iw := by
  have := iw.isLt
  apply BitVec.eq_of_toNat_eq
  simp only [encS, immSOf, rs2Of, rs1Of, funct3Of, opcodeOf, append_toNat, extractBits_toNat, BitVec.extractLsb'_toNat,
    Nat.shiftRight_eq_div_pow]
  omega

/-- The encoder takes the pieces of a decoded branch offset from where the decoder put them. -/
theorem encB_immBOf (iw : InstrWord) (rs2 rs1 : Reg) (funct3 : BitVec 3) (opcode : BitVec 7) :
    encB (immBOf iw) rs2 rs1 funct3 opcode =
      extractBits iw 31 1 ++ extractBits iw 25 6 ++ rs2 ++ rs1 ++ funct3 ++ extractBits iw 8 4 ++ extractBits iw 7 1
        ++ opcode := by
  unfold encB immBOf
  generalize extractBits iw 31 1 = p
  generalize extractBits iw 7 1 = q
  generalize extractBits iw 25 6 = u
  generalize extractBits iw 8 4 = v
  have := p.isLt
  have := q.isLt
  have := u.isLt
  have := v.isLt
  refine append_congr (append_congr (append_congr (append_congr (append_congr (append_congr (append_congr
    ?_ ?_) rfl) rfl) rfl) ?_) ?_) rfl <;>
    apply BitVec.eq_of_toNat_eq <;>
    simp only [append_toNat, BitVec.extractLsb'_toNat, Nat.shiftRight_eq_div_pow, BitVec.toNat_ofNat] <;> omega

theorem funct7Of_eq_append (iw : InstrWord) : funct7Of iw = extractBits iw 31 1 ++ extractBits iw 25 6 := by
  apply BitVec.eq_of_toNat_eq
  simp only [funct7Of, append_toNat, extractBits_toNat]
  omega

theorem rdOf_eq_append (iw : InstrWord) : rdOf iw = extractBits iw 8 4 ++ extractBits iw 7 1 := by
  apply BitVec.eq_of_toNat_eq
  simp only [rdOf, append_toNat, extractBits_toNat]
  omega

/-- The SB format is the R format with the offset's pieces in the places of funct7 and rd. -/
theorem encB_fields (iw : InstrWord) :
    encB (immBOf iw) (rs2Of iw) (rs1Of iw) (funct3Of iw) (opcodeOf iw) = iw := by
  refine Eq.trans ?_ (encR_fields iw)
  rw [encB_immBOf, funct7Of_eq_append, rdOf_eq_append]
  apply BitVec.eq_of_toNat_eq
  simp only [encR, append_toNat]
  omega

/-- The encoder takes the pieces of a decoded jump offset from where the decoder put them. -/
theorem encJ_immJOf (iw : InstrWord) (rd : Reg) (opcode : BitVec 7) :
    encJ (immJOf iw) rd opcode =
      extractBits iw 31 1 ++ extractBits iw 21 10 ++ extractBits iw 20 1 ++ extractBits iw 12 8 ++ rd ++ opcode := by
  unfold encJ immJOf
  generalize extractBits iw 31 1 = p
  generalize extractBits iw 12 8 = q
  generalize extractBits iw 20 1 = u
  generalize extractBits iw 21 10 = v
  have := p.isLt
  have := q.isLt
  have := u.isLt
  have := v.isLt
  refine append_congr (append_congr (append_congr (append_congr (append_congr ?_ ?_) ?_) ?_) rfl) rfl <;>
    apply BitVec.eq_of_toNat_eq <;>
    simp only [append_toNat, BitVec.extractLsb'_toNat, Nat.shiftRight_eq_div_pow, BitVec.toNat_ofNat] <;> omega

theorem encJ_fields (iw : InstrWord) : encJ (immJOf iw) (rdOf iw) (opcodeOf iw) = iw := by
  have := iw.isLt
  rw [encJ_immJOf]
  apply BitVec.eq_of_toNat_eq
  simp only [rdOf, opcodeOf, append_toNat, extractBits_toNat]
  omega

/-- R58, R60: the zero appended to a branch offset makes it well-formed. -/
theorem branchOffsetOk_immBOf (iw : InstrWord) : branchOffsetOk (immBOf iw) = true := by
  rw [branchOffsetOk, immBOf, BitVec.getLsbD_append]
  rfl

/-- R59, R60: the zero appended to a jump offset makes it well-formed. -/
theorem jumpOffsetOk_immJOf (iw : InstrWord) : jumpOffsetOk (immJOf iw) = true := by
  rw [jumpOffsetOk, immJOf, BitVec.getLsbD_append]
  rfl

theorem extractBits_and (iw mask : InstrWord) (lo n : Nat) :
    extractBits (iw &&& mask) lo n = extractBits iw lo n &&& extractBits mask lo n :=
  BitVec.extractLsb'_and

/-- A field all of whose bits the mask keeps. -/
theorem extractBits_and_of_kept {mask : InstrWord} {lo n : Nat} (h : extractBits mask lo n = BitVec.allOnes n) :
    extractBits (iw &&& mask) lo n = extractBits iw lo n := by
  rw [extractBits_and, h, BitVec.and_allOnes]

/-- A field none of whose bits the mask keeps. -/
theorem extractBits_and_of_cleared {mask : InstrWord} {lo n : Nat} (h : extractBits mask lo n = 0) :
    extractBits (iw &&& mask) lo n = 0 := by
  rw [extractBits_and, h]
  exact BitVec.and_zero

end Formats

end Sys2Proof
end

section
/-! SUPPORT. What each executor decodes encodes to its word with the unexamined bits cleared (R64 to R67, D10, D28). -/

namespace Sys2Proof

open Sys2Proof.Says

section Executors
variable {iw : InstrWord} {i : Instr}

/-- R64, D10: funct7 with the bits cleared that the R executor does not look at, from the two it looks at. -/
theorem funct7Of_and_examined {b5 b0 : Bool} (h5 : funct7Bit5 iw = b5) (h0 : funct7Bit0 iw = b0) :
    funct7Of iw &&& 0x21 = (BitVec.ofBool b5).setWidth 7 <<< 5 ||| (BitVec.ofBool b0).setWidth 7 := by
  have hbits : ∀ x : BitVec 7,
      x &&& 0x21 = (BitVec.ofBool x[5]).setWidth 7 <<< 5 ||| (BitVec.ofBool x[0]).setWidth 7 := by decide
  have h5' : (funct7Of iw)[5] = b5 := by rw [← h5]; simp [funct7Of, extractBits, funct7Bit5]
  have h0' : (funct7Of iw)[0] = b0 := by rw [← h0]; simp [funct7Of, extractBits, funct7Bit0]
  rw [hbits, h5', h0']

/-- The R format of the examined fields is the word under the mask of D10. -/
theorem encR_examined (hop : opcodeOf iw = opR) {f7 : BitVec 7} {f3 : BitVec 3} (h7 : funct7Of iw &&& 0x21 = f7)
    (h3 : funct3Of iw = f3) : encR f7 (rs2Of iw) (rs1Of iw) f3 (rdOf iw) opR = iw &&& 0x43FFFFFF := by
  have hfields := encR_fields (iw &&& 0x43FFFFFF)
  rwa [show funct7Of (iw &&& 0x43FFFFFF) = f7 from (extractBits_and ..).trans h7,
    show rs2Of (iw &&& 0x43FFFFFF) = rs2Of iw from extractBits_and_of_kept (by decide),
    show rs1Of (iw &&& 0x43FFFFFF) = rs1Of iw from extractBits_and_of_kept (by decide),
    show funct3Of (iw &&& 0x43FFFFFF) = f3 from (extractBits_and_of_kept (by decide)).trans h3,
    show rdOf (iw &&& 0x43FFFFFF) = rdOf iw from extractBits_and_of_kept (by decide),
    show opcodeOf (iw &&& 0x43FFFFFF) = opR from (extractBits_and_of_kept (by decide)).trans hop] at hfields

/-- The I format of the examined fields of a JALR word is the word under the mask of D28. -/
theorem encI_examined (hop : opcodeOf iw = opJalr) :
    encI (immIOf iw) (rs1Of iw) 0 (rdOf iw) opJalr = iw &&& 0xFFFF8FFF := by
  have hfields := encI_fields (iw &&& 0xFFFF8FFF)
  rwa [show immIOf (iw &&& 0xFFFF8FFF) = immIOf iw from extractBits_and_of_kept (by decide),
    show rs1Of (iw &&& 0xFFFF8FFF) = rs1Of iw from extractBits_and_of_kept (by decide),
    show funct3Of (iw &&& 0xFFFF8FFF) = 0 from extractBits_and_of_cleared (by decide),
    show rdOf (iw &&& 0xFFFF8FFF) = rdOf iw from extractBits_and_of_kept (by decide),
    show opcodeOf (iw &&& 0xFFFF8FFF) = opJalr from (extractBits_and_of_kept (by decide)).trans hop] at hfields

/-- The rows of R64: the two bits of funct7 and the funct3 of a row are what the encoder writes for its instruction. -/
theorem encode_of_decodeR (hop : opcodeOf iw = opR) (h : decodeR iw = .ok i) :
    i.wf = true ∧ encode i = iw &&& 0x43FFFFFF := by
  have row {b5 b0 : Bool} {f7 : BitVec 7} {f3 : BitVec 3} (h5 : funct7Bit5 iw = b5) (h0 : funct7Bit0 iw = b0)
      (h3 : funct3Of iw = f3)
      (h7 : (BitVec.ofBool b5).setWidth 7 <<< 5 ||| (BitVec.ofBool b0).setWidth 7 = f7) :
      encR f7 (rs2Of iw) (rs1Of iw) f3 (rdOf iw) opR = iw &&& 0x43FFFFFF :=
    encR_examined hop ((funct7Of_and_examined h5 h0).trans h7) h3
  unfold decodeR at h
  dsimp only at h
  split_ifs at h
  case pos h3 => split at h <;> cases h <;> exact ⟨rfl, row ‹_› ‹_› h3 (by decide)⟩
  case pos h3 => split at h <;> cases h; exact ⟨rfl, row ‹_› ‹_› h3 (by decide)⟩
  case pos h3 => split at h <;> cases h <;> exact ⟨rfl, row ‹_› ‹_› h3 (by decide)⟩
  case pos h3 => split at h <;> cases h <;> exact ⟨rfl, row ‹_› ‹_› h3 (by decide)⟩

theorem encode_of_decodeIArith (hop : opcodeOf iw = opIArith) (h : decodeIArith iw = .ok i) :
    i.wf = true ∧ encode i = iw := by
  have addiRow {f3 : BitVec 3} (h3 : funct3Of iw = f3) : encI (immIOf iw) (rs1Of iw) f3 (rdOf iw) opIArith = iw := by
    rw [← h3, ← hop, encI_fields]
  have shiftRow {f3 : BitVec 3} {hi : BitVec 6} (h3 : funct3Of iw = f3) (hhi : shamtHiOf iw = hi) :
      encShift hi (shamtOf iw) (rs1Of iw) f3 (rdOf iw) opIArith = iw := by
    rw [← h3, ← hhi, ← hop, encShift_fields]
  unfold decodeIArith at h
  dsimp only at h
  split_ifs at h
  case pos h3 => cases h; exact ⟨rfl, addiRow h3⟩
  case pos h3 hhi => cases h; exact ⟨rfl, shiftRow h3 hhi⟩
  case pos h3 hhi => cases h; exact ⟨rfl, shiftRow h3 hhi⟩
  case pos h3 _ hhi => cases h; exact ⟨rfl, shiftRow h3 hhi⟩

theorem encode_of_decodeLoad (hop : opcodeOf iw = opLoad) (h : decodeLoad iw = .ok i) :
    i.wf = true ∧ encode i = iw := by
  have row {f3 : BitVec 3} (h3 : funct3Of iw = f3) : encI (immIOf iw) (rs1Of iw) f3 (rdOf iw) opLoad = iw := by
    rw [← h3, ← hop, encI_fields]
  unfold decodeLoad at h
  dsimp only at h
  split_ifs at h <;> cases h <;> exact ⟨rfl, row ‹_›⟩

theorem encode_of_decodeStore (hop : opcodeOf iw = opStore) (h : decodeStore iw = .ok i) :
    i.wf = true ∧ encode i = iw := by
  have row {f3 : BitVec 3} (h3 : funct3Of iw = f3) : encS (immSOf iw) (rs2Of iw) (rs1Of iw) f3 opStore = iw := by
    rw [← h3, ← hop, encS_fields]
  unfold decodeStore at h
  dsimp only at h
  split_ifs at h <;> cases h <;> exact ⟨rfl, row ‹_›⟩

theorem encode_of_decodeBranch (hop : opcodeOf iw = opBranch) (h : decodeBranch iw = .ok i) :
    i.wf = true ∧ encode i = iw := by
  have row {f3 : BitVec 3} (h3 : funct3Of iw = f3) : encB (immBOf iw) (rs2Of iw) (rs1Of iw) f3 opBranch = iw := by
    rw [← h3, ← hop, encB_fields]
  unfold decodeBranch at h
  dsimp only at h
  split_ifs at h <;> cases h <;> exact ⟨branchOffsetOk_immBOf iw, row ‹_›⟩

theorem encode_of_decodeJalr (hop : opcodeOf iw = opJalr) (h : decodeJalr iw = .ok i) :
    i.wf = true ∧ encode i = iw &&& 0xFFFF8FFF := by
  cases h
  exact ⟨rfl, encI_examined hop⟩

theorem encode_of_decodeJal (hop : opcodeOf iw = opJal) (h : decodeJal iw = .ok i) : i.wf = true ∧ encode i = iw := by
  cases h
  have hfields := encJ_fields iw
  rw [hop] at hfields
  exact ⟨jumpOffsetOk_immJOf iw, hfields⟩

end Executors

end Sys2Proof
end

section
/-! PROOFS. The other statements of 30_encoding.md. -/

namespace Sys2Proof.Proofs

open Sys2Proof.Machine Sys2Proof.Says

/-- Settles O2: executor by executor, the fields that selected the instruction are the ones the encoder writes. -/
theorem encodingADecodedWordGivesItsExaminedBits : Obligations.EncodingADecodedWordGivesItsExaminedBits := by
  intro iw i hd
  by_cases hop : field iw 0 7 ∈ [0x33, 0x13, 0x03, 0x67, 0x23, 0x63, 0x6F]
  · simp only [List.mem_cons, List.not_mem_nil, or_false] at hop
    obtain h | h | h | h | h | h | h := hop
    · rw [h]; exact encode_of_decodeR (opcodeOf_eq_iff.mpr h) (decodeWord_of_opR h ▸ hd)
    · rw [h]; exact encode_of_decodeIArith (opcodeOf_eq_iff.mpr h) (decodeWord_of_opIArith h ▸ hd)
    · rw [h]; exact encode_of_decodeLoad (opcodeOf_eq_iff.mpr h) (decodeWord_of_opLoad h ▸ hd)
    · rw [h]; exact encode_of_decodeJalr (opcodeOf_eq_iff.mpr h) (decodeWord_of_opJalr h ▸ hd)
    · rw [h]; exact encode_of_decodeStore (opcodeOf_eq_iff.mpr h) (decodeWord_of_opStore h ▸ hd)
    · rw [h]; exact encode_of_decodeBranch (opcodeOf_eq_iff.mpr h) (decodeWord_of_opBranch h ▸ hd)
    · rw [h]; exact encode_of_decodeJal (opcodeOf_eq_iff.mpr h) (decodeWord_of_opJal h ▸ hd)
  · rw [decodeWord_of_no_opcode hop] at hd
    cases hd

/-- Settles O3: eight words, each decoded by evaluation. -/
theorem specWordsDecodeToTheirInstructions : Obligations.SpecWordsDecodeToTheirInstructions := by
  refine ⟨?_, ?_, ?_, ?_, ?_, ?_, ?_, ?_⟩ <;> decide

end Sys2Proof.Proofs
end

section
/-! SUPPORT. Accesses of several bytes in the statements' terms (R32, R33): which ranges are mapped, what is read, what is stored,
and a read inside a stored range. -/

namespace Sys2Proof.Says

open Sys2Proof.Machine

/-- R30, R37: a range is unmapped where some byte of it is. -/
theorem mappedRange_eq_false {p : Platform} {a : Word} {n : Nat} (h : ¬AllMapped p a n) : mappedRange p a n = false :=
  Bool.eq_false_iff.mpr (mt mappedRange_iff.mp h)

/-- R32: up to eight bytes fit in 64 bits. -/
theorem bytesValue_lt {n : Nat} (hn : n ≤ 8) (s : State) (a : Word) : bytesValue s a n < 2 ^ 64 := by
  rw [bytesValue_eq_loadBytes]
  exact (loadBytes_lt _ _ _).trans_le (Nat.pow_le_pow_right (by decide) (by omega))

/-- The widths of R32 and R33 are at most eight bytes. -/
theorem width_le {n : Nat} (hn : n ∈ [1, 2, 4, 8]) : n ≤ 8 := by
  simp only [List.mem_cons, List.not_mem_nil, or_false] at hn
  omega

theorem at_at (a : Word) (k i : Nat) : at_ (at_ a k) i = at_ a (k + i) := by
  rw [at_, at_, at_, BitVec.add_assoc, BitVec.ofNat_add]

/-- R31, R33: on the bytes from `k` on, a store reads as the store of the value shifted right by `k` bytes. -/
theorem get_storeBytes_at_shift {m : Memory} (hm : Memory.wf m = true) {n j k i : Nat} (hn : n < 2 ^ 64) (hkj : k + j ≤ n)
    (hi : i < j) (a v : Word) :
    Memory.get (storeBytes m a n v) (at_ (at_ a k) i).toNat =
      Memory.get (storeBytes m (at_ a k) j (v >>> (8 * k))) (at_ (at_ a k) i).toNat := by
  have hlong : (at_ (at_ a k) i - a).toNat = k + i := by rw [at_at, toNat_at_sub a (by omega)]
  have hshort : (at_ (at_ a k) i - at_ a k).toNat = i := toNat_at_sub _ (by omega)
  rw [get_storeBytes hm hn, get_storeBytes hm (by omega), hlong, hshort, if_pos (by omega), if_pos hi, Nat.mul_add,
    BitVec.shiftRight_add]

/-- R31 to R33: a read inside a stored range gives the bytes of the value from there. -/
theorem loadBytes_inside_storeBytes {m : Memory} (hm : Memory.wf m = true) {n j k : Nat} (hn : n < 2 ^ 64) (hkj : k + j ≤ n)
    (a v : Word) : loadBytes (storeBytes m a n v) (at_ a k) j = u64 v / 2 ^ (8 * k) % 2 ^ (8 * j) := by
  rw [loadBytes_congr fun i hi => get_storeBytes_at_shift hm hn hkj hi a v, loadBytes_storeBytes hm (by omega),
    BitVec.toNat_ushiftRight, Nat.shiftRight_eq_div_pow, u64]

end Sys2Proof.Says
end

section
/-! SUPPORT. The canonical form is unique (log 5): memories that read alike have the same least listed address, and reading alike
passes to the rest. -/

namespace Sys2Proof.Machine

/-- The two memories give the same byte at every address of the address space. -/
def ReadAlike (m m' : Memory) : Prop := ∀ a < 2 ^ 64, Memory.get m a = Memory.get m' a

section Canonical
variable {m m' : Memory} {a b : Nat} {u v : Byte}

theorem ReadAlike.symm (h : ReadAlike m m') : ReadAlike m' m := fun a ha => (h a ha).symm

theorem get_cons_self : Memory.get ((a, u) :: m) a = u := if_pos rfl

theorem get_cons_of_ne {c : Nat} (h : c ≠ a) : Memory.get ((a, u) :: m) c = Memory.get m c := if_neg h

/-- A memory with an entry does not read like the memory without one. -/
theorem not_readAlike_nil (hm : Memory.wf ((a, u) :: m) = true) : ¬ReadAlike ((a, u) :: m) [] := by
  obtain ⟨ha, hu, -, -⟩ := wf_cons.mp hm
  exact fun h => hu (get_cons_self.symm.trans (h a ha))

/-- The first entry of the one memory is not below the first entry of the other: the other reads its address as unlisted. -/
theorem ReadAlike.head_le (h : ReadAlike ((a, u) :: m) ((b, v) :: m')) (hm : Memory.wf ((a, u) :: m) = true)
    (hm' : Memory.wf ((b, v) :: m') = true) : b ≤ a := by
  obtain ⟨ha, hu, -, -⟩ := wf_cons.mp hm
  obtain ⟨-, -, hbelow, -⟩ := wf_cons.mp hm'
  by_contra hlt
  have hlt : a < b := Nat.lt_of_not_le hlt
  have hunlisted : Memory.get ((b, v) :: m') a = Config.unlistedByte :=
    get_of_below (List.forall_mem_cons.mpr ⟨hlt, fun c hc => hlt.trans (hbelow c hc)⟩)
  exact hu (get_cons_self.symm.trans ((h a ha).trans hunlisted))

/-- Without their common first entry the two memories read alike: that address is unlisted in both. -/
theorem ReadAlike.tail (h : ReadAlike ((a, u) :: m) ((a, v) :: m')) (hm : Memory.wf ((a, u) :: m) = true)
    (hm' : Memory.wf ((a, v) :: m') = true) : ReadAlike m m' := by
  obtain ⟨-, -, hbelow, -⟩ := wf_cons.mp hm
  obtain ⟨-, -, hbelow', -⟩ := wf_cons.mp hm'
  intro c hc
  by_cases hca : c = a
  · rw [hca, get_of_below hbelow, get_of_below hbelow']
  · rw [← get_cons_of_ne hca, h c hc, get_cons_of_ne hca]

theorem eq_of_readAlike (hm : Memory.wf m = true) (hm' : Memory.wf m' = true) (h : ReadAlike m m') : m = m' := by
  induction m generalizing m' with
  | nil =>
    cases m' with
    | nil => rfl
    | cons d m' => exact absurd h.symm (not_readAlike_nil hm')
  | cons c m ih =>
    cases m' with
    | nil => exact absurd h (not_readAlike_nil hm)
    | cons d m' =>
      obtain ⟨a, u⟩ := c
      obtain ⟨b, v⟩ := d
      have hab : a = b := Nat.le_antisymm (h.symm.head_le hm' hm) (h.head_le hm hm')
      subst hab
      obtain ⟨ha, -, -, hwf⟩ := wf_cons.mp hm
      obtain ⟨-, -, -, hwf'⟩ := wf_cons.mp hm'
      have huv : u = v := get_cons_self.symm.trans ((h a ha).trans get_cons_self)
      rw [huv, ih hwf hwf' (h.tail hm hm')]

end Canonical

end Sys2Proof.Machine
end

section
/-! PROOFS. The statements of 20_memory.md. -/

namespace Sys2Proof.Proofs

open Sys2Proof.Machine Sys2Proof.Says

/-- Settles O37: a read answers exactly on a mapped range, with a sum that fits in 64 bits. -/
theorem memReadIsTheLittleEndianSum : Obligations.MemReadIsTheLittleEndianSum := by
  intro s a n hn
  refine ⟨fun hmapped => ⟨_, memRead_eq_some.mpr ⟨mappedRange_iff.mpr hmapped, rfl⟩, ?_⟩,
    fun hunmapped => memRead_eq_none.mpr (mappedRange_eq_false hunmapped)⟩
  rw [← bytesValue_eq_loadBytes, u64, BitVec.toNat_ofNat, Nat.mod_eq_of_lt (bytesValue_lt (width_le hn) s a)]

/-- Settles O38: a write answers exactly on a mapped range, and changes memory alone. -/
theorem memWriteStoresItsBytesAndNoOther : Obligations.MemWriteStoresItsBytesAndNoOther := by
  intro s a v n hn hwf
  have hlt : n < 2 ^ 64 := (width_le hn).trans_lt (by decide)
  refine ⟨fun hmapped => ?_, fun hunmapped => memWrite_eq_none.mpr (mappedRange_eq_false hunmapped)⟩
  exact ⟨_, memWrite_eq_some.mpr ⟨mappedRange_iff.mpr hmapped, rfl⟩, fun _ hi => get_storeBytes_at hwf hlt _ _ hi,
    fun _ hb => get_storeBytes_of_ne hwf hlt _ hb, fun _ => rfl, rfl, rfl, rfl, rfl, rfl, rfl, rfl⟩

/-- Settles O39: the inner range is mapped with the outer one, and reads the bytes the store put there. -/
theorem readingInsideAStoreGivesItsBytes : Obligations.ReadingInsideAStoreGivesItsBytes := by
  intro s t a v n k m hn hkm hwf hwrite
  obtain ⟨hmapped, rfl⟩ := memWrite_eq_some.mp hwrite
  have hinner : mappedRange s.plat (at_ a k) m = true := mappedRange_iff.mpr fun i hi => by
    have := mappedRange_iff.mp hmapped (k + i) (by omega)
    rwa [← at_, ← at_at] at this
  have hfits : u64 v / 2 ^ (8 * k) % 2 ^ (8 * m) < 2 ^ 64 :=
    (Nat.mod_le _ _).trans_lt ((Nat.div_le_self _ _).trans_lt v.isLt)
  refine ⟨_, memRead_eq_some.mpr ⟨hinner, rfl⟩, ?_⟩
  rw [loadBytes_inside_storeBytes hwf (hn.trans_lt (by decide)) hkm, u64, BitVec.toNat_ofNat, Nat.mod_eq_of_lt hfits]

/-- Settles O40: the fetch reads back the four bytes the store put at the next pc. -/
theorem aStoreIsSeenByTheNextFetch : Obligations.AStoreIsSeenByTheNextFetch := by
  intro rs2 rs1 imm s t hwf hexec hpc
  rw [exec_sw, storeOp_eq] at hexec
  split at hexec
  · next hmapped =>
    cases hexec
    rw [retire_pc] at hpc
    refine ⟨_, fetch_eq_some.mpr ⟨?_, rfl⟩, ?_⟩
    · rwa [retire_pc, retire_plat, hpc]
    · rw [retire_pc, retire_mem, hpc, loadBytes_storeBytes hwf (by decide), BitVec.toNat_ofNat]
      exact Nat.mod_mod _ _
  · cases hexec

/-- Settles O41: by induction on the list, first entry by first entry. -/
theorem canonicalMemoriesThatReadAlikeAreEqual : Obligations.CanonicalMemoriesThatReadAlikeAreEqual := by
  intro m m' hm hm' h
  refine eq_of_readAlike hm hm' fun a ha => ?_
  simpa only [BitVec.toNat_ofNat, Nat.mod_eq_of_lt ha] using h (BitVec.ofNat 64 a)

end Sys2Proof.Proofs
end

section
/-! SUPPORT. The category counter of each instruction (R166), from the shared operations of the executors. -/

namespace Sys2Proof.Machine

open Sys2Proof.Says

/-- The statements' table of increments is the model's. -/
theorem bump_eq_oneMore (c : Counters) (k : Category) : c.bump k = oneMore c k := by cases k <;> rfl

section Counts
variable {s t : State} {n : Nat}

theorem arithOp_cnt {rd : Reg} {v : Word} (h : arithOp rd v s = .next t) : t.cnt = s.cnt.bump .arith := by
  cases h; rfl

theorem loadOp_cnt {e : Word → Word} {rd rs1 : Reg} {imm : BitVec 12} (h : loadOp n e rd rs1 imm s = .next t) :
    t.cnt = s.cnt.bump .load := by
  rw [loadOp_eq] at h
  split at h
  · cases h; rfl
  · cases h

theorem storeOp_cnt {rs2 rs1 : Reg} {imm : BitVec 12} (h : storeOp n rs2 rs1 imm s = .next t) :
    t.cnt = s.cnt.bump .store := by
  rw [storeOp_eq] at h
  split at h
  · cases h; rfl
  · cases h

/-- R142: the counter is chosen by the relation `p` the condition decides. -/
theorem branchOp_cnt {p : Prop} [Decidable p] {cond : Bool} {imm : BitVec 13} (hc : cond = true ↔ p)
    (h : branchOp cond imm s = .next t) : t.cnt = s.cnt.bump (if p then .brTaken else .brNotTaken) := by
  rw [branchOp_eq] at h
  cases h
  rw [retire_cnt, if_congr hc rfl rfl]

end Counts

/-- The table of R166, row by row. -/
theorem exec_cnt {i : Instr} {s t : State} (h : exec i s = .next t) : t.cnt = oneMore s.cnt (categoryOf i s) := by
  rw [← bump_eq_oneMore]
  cases i with
  | add | sub | mul | sll | srl | sra | divu | and | remu | addi | slli | srli | srai => exact arithOp_cnt h
  | lb | lh | lw | ld => exact loadOp_cnt h
  | sb | sh | sw | sd => exact storeOp_cnt h
  | beq => exact branchOp_cnt condEq_iff h
  | bne => exact branchOp_cnt condNe_iff h
  | blt => exact branchOp_cnt condLt_iff h
  | bge => exact branchOp_cnt condGe_iff h
  | bltu => exact branchOp_cnt condLtu_iff h
  | bgeu => exact branchOp_cnt condGeu_iff h
  | jalr | jal => cases h; rfl

/-- The category is decided by the registers, which a fetch leaves alone. -/
theorem categoryOf_afterFetch (i : Instr) (s : State) (iw : InstrWord) :
    categoryOf i (s.afterFetch iw) = categoryOf i s := by
  cases i <;> rfl

end Sys2Proof.Machine
end

section
/-! SUPPORT. The registers after each instruction (R11): one register write at the destination, or none. -/

namespace Sys2Proof.Machine

open Sys2Proof.Says

section Registers
variable {s t : State} {n : Nat}

theorem loadOp_regs {e : Word → Word} {rd rs1 : Reg} {imm : BitVec 12} (h : loadOp n e rd rs1 imm s = .next t) :
    ∃ v, t.regs = (s.writeReg rd v).regs := by
  rw [loadOp_eq] at h
  split at h
  · cases h; exact ⟨_, rfl⟩
  · cases h

theorem storeOp_regs {rs2 rs1 : Reg} {imm : BitVec 12} (h : storeOp n rs2 rs1 imm s = .next t) : t.regs = s.regs := by
  rw [storeOp_eq] at h
  split at h
  · cases h; rfl
  · cases h

theorem branchOp_regs {cond : Bool} {imm : BitVec 13} (h : branchOp cond imm s = .next t) : t.regs = s.regs := by
  rw [branchOp_eq] at h
  cases h; rfl

/-- R11: the register file after an instruction, by its destination. -/
theorem exec_regs {i : Instr} (h : exec i s = .next t) :
    (∃ rd v, destination i = some rd ∧ t.regs = (s.writeReg rd v).regs) ∨ (destination i = none ∧ t.regs = s.regs) := by
  cases i with
  | add | sub | mul | sll | srl | sra | divu | and | remu | addi | slli | srli | srai | jal =>
    cases h
    exact .inl ⟨_, _, rfl, rfl⟩
  | lb | lh | lw | ld =>
    obtain ⟨v, hv⟩ := loadOp_regs h
    exact .inl ⟨_, v, rfl, hv⟩
  | sb | sh | sw | sd => exact .inr ⟨rfl, storeOp_regs h⟩
  | beq | bne | blt | bge | bltu | bgeu => exact .inr ⟨rfl, branchOp_regs h⟩
  | jalr => cases h; exact .inr ⟨rfl, rfl⟩

theorem exec_readReg_of_ne_destination {i : Instr} (h : exec i s = .next t) {r : Reg} (hr : destination i ≠ some r) :
    t.readReg r = s.readReg r := by
  obtain ⟨rd, v, hrd, hregs⟩ | ⟨-, hregs⟩ := exec_regs h
  · have hne : r ≠ rd := fun e => hr (e ▸ hrd)
    rw [readReg_congr hregs, readReg_writeReg, if_neg fun hw => hne hw.1]
  · exact readReg_congr hregs r

end Registers

end Sys2Proof.Machine
end

section
/-! SUPPORT. Which instructions complete (R195): all but those whose access meets an unmapped byte (R37). -/

namespace Sys2Proof.Says

open Sys2Proof.Machine

section Completion
variable {s : State} {n : Nat} {rs1 : Reg} {imm : BitVec 12}

theorem loadOp_of_not_allMapped (h : ¬AllMapped s.plat (s.effAddr rs1 imm) n) (extend : Word → Word) (rd : Reg) :
    loadOp n extend rd rs1 imm s = .fault (.memoryViolation .load (s.effAddr rs1 imm)) := by
  rw [loadOp_eq, if_neg (mt mappedRange_iff.mp h)]

theorem storeOp_of_not_allMapped (h : ¬AllMapped s.plat (s.effAddr rs1 imm) n) (rs2 : Reg) :
    storeOp n rs2 rs1 imm s = .fault (.memoryViolation .store (s.effAddr rs1 imm)) := by
  rw [storeOp_eq, if_neg (mt mappedRange_iff.mp h)]

theorem exec_completes (i : Instr) (h : ∀ k a n, dataAccess i s = some (k, a, n) → AllMapped s.plat a n) :
    ∃ t, exec i s = .next t := by
  cases i with
  | add | sub | mul | sll | srl | sra | divu | and | remu | addi | slli | srli | srai => exact ⟨_, rfl⟩
  | lb | lh | lw | ld => exact ⟨_, loadOp_of_allMapped (h _ _ _ rfl) _ _⟩
  | sb | sh | sw | sd => exact ⟨_, storeOp_of_allMapped (h _ _ _ rfl) _⟩
  | beq | bne | blt | bge | bltu | bgeu => exact ⟨_, rfl⟩
  | jalr | jal => exact ⟨_, rfl⟩

theorem exec_of_unmapped_access {i : Instr} {k : AccessKind} {a : Word} (hacc : dataAccess i s = some (k, a, n))
    (h : ¬AllMapped s.plat a n) : exec i s = .fault (.memoryViolation k a) := by
  cases i with
  | add | sub | mul | sll | srl | sra | divu | and | remu | addi | slli | srli | srai => cases hacc
  | lb | lh | lw | ld => cases hacc; exact loadOp_of_not_allMapped h _ _
  | sb | sh | sw | sd => cases hacc; exact storeOp_of_not_allMapped h _
  | beq | bne | blt | bge | bltu | bgeu => cases hacc
  | jalr | jal => cases hacc

end Completion

end Sys2Proof.Says
end

section
/-! SUPPORT. The alignment of the next pc (R210), in the numbers of the table of R14. -/

namespace Sys2Proof.Says

open Sys2Proof.Machine

/-- Wrapping at 2^64 keeps the remainder by 4. -/
theorem IsMod.mod_four_iff {v : Word} {z : Int} (h : IsMod v z) : v.toNat % 4 = 0 ↔ z % 4 = 0 := by
  unfold IsMod at h
  omega

/-- A two's-complement reading of two bits or more keeps the remainder by 4. -/
theorem signed_mod_four {w v : Nat} (hw : 2 ≤ w) (hv : v % 4 = 0) : signed w v % 4 = 0 := by
  have hpow : 4 ∣ 2 ^ w := pow_dvd_pow 2 hw
  have hlow : v % 2 ^ w % 4 = 0 := (Nat.mod_mod_of_dvd v hpow).trans hv
  unfold signed
  split <;> omega

/-- R210: under the obligation of software every row of R14's table is a multiple of 4. -/
theorem nextPc_mod_four {i : Instr} {s : State} (hpc : s.PcAligned) (hoffset : pcOffset i % 4 = 0)
    (hjalr : ∀ rd rs1 imm, i = .jalr rd rs1 imm → (s.effAddr rs1 imm).toNat % 4 = 0) : nextPc i s % 4 = 0 := by
  have hnext : ((s.pc.toNat : Int) + 4) % 4 = 0 := by omega
  have hbranch {imm : BitVec 13} (h : imm.toNat % 4 = 0) {p : Prop} [Decidable p] :
      (if p then (s.pc.toNat : Int) + signed 13 imm.toNat else s.pc.toNat + 4) % 4 = 0 := by
    have htaken : signed 13 imm.toNat % 4 = 0 := signed_mod_four (by decide) h
    split <;> omega
  cases i with
  | add | sub | mul | sll | srl | sra | divu | and | remu | addi | slli | srli | srai => exact hnext
  | lb | lh | lw | ld | sb | sh | sw | sd => exact hnext
  | beq | bne | blt | bge | bltu | bgeu => exact hbranch hoffset
  | jalr rd rs1 imm => exact (isMod_add_imm12 (s.readReg rs1) imm).mod_four_iff.mp (hjalr rd rs1 imm rfl)
  | jal rd imm =>
    have hjump : signed 21 imm.toNat % 4 = 0 := signed_mod_four (by decide) hoffset
    have htarget : ((s.pc.toNat : Int) + signed 21 imm.toNat) % 4 = 0 := by omega
    exact htarget

end Sys2Proof.Says
end

section
/-! PROOFS. What every instruction does: 10_state.md, 50_fetch_dispatch.md section 2, 60_exceptions.md section 2,
70_reset_and_hazards.md section 3. -/

namespace Sys2Proof.Proofs

open Sys2Proof.Machine Sys2Proof.Says

/-- Settles O47: the total with the fetch, the category with the instruction; a raise adds no category, the sentinel nothing. -/
theorem eachStepCountsOneWordAndOneCategory : Obligations.EachStepCountsOneWordAndOneCategory := by
  refine ⟨fun s t iw i ⟨hr, hpc⟩ hf hd h => ?_, fun s t iw r hs hf hd h => ?_, fun s t hr hpc h => ?_⟩
  · rw [step_of_fetch hr hpc hf, dispatchWord_ok hd] at h
    rw [exec_cnt h, categoryOf_afterFetch]
    rfl
  · rw [step_of_raise hs hf hd] at h
    cases h; rfl
  · rw [step_of_sentinel hr hpc] at h
    cases h; rfl

/-- Settles O48: the register file after an instruction is one write at its destination, or untouched. -/
theorem onlyTheDestinationRegisterIsWritten : Obligations.OnlyTheDestinationRegisterIsWritten :=
  fun _ _ t h => ⟨fun _ hr => exec_readReg_of_ne_destination h hr, readReg_zero t⟩

/-- Settles O49: only loads, stores and the fetch can fault, and only where a byte is unmapped. -/
theorem instructionsCompleteUnlessAnAccessIsUnmapped : Obligations.InstructionsCompleteUnlessAnAccessIsUnmapped := by
  refine ⟨fun i s hmapped => ?_, fun i s k a n hacc hunmapped => exec_of_unmapped_access hacc hunmapped,
    fun s ⟨hr, hpc⟩ hunmapped => step_of_no_fetch hr hpc (fetch_eq_none.mpr (mappedRange_eq_false hunmapped))⟩
  obtain ⟨t, ht⟩ := exec_completes i hmapped
  obtain ⟨-, hrun, hfault, -, -⟩ := (exec_next ht).frame
  exact ⟨t, ht, hrun, hfault⟩

/-- Settles O58: the pc is R14's entry modulo 2^64, and the entry is a multiple of 4. -/
theorem thePcStaysAlignedUnderItsObligation : Obligations.ThePcStaysAlignedUnderItsObligation :=
  fun _ _ _ hpc hoffset hjalr h => (exec_pc h).mod_four_iff.mpr (nextPc_mod_four hpc hoffset hjalr)

end Sys2Proof.Proofs
end

section
/-! PROOFS. The end of a run and the effect of raise: 50_fetch_dispatch.md section 1, 60_exceptions.md. -/

namespace Sys2Proof.Proofs

open Sys2Proof.Machine Sys2Proof.Says

/-- Settles O43: the terminal test is the first of a step. -/
theorem stoppedAndFaultedTakeNoStep : Obligations.StoppedAndFaultedTakeNoStep :=
  fun _ hr => step_of_terminal hr

/-- Settles O44: from RUNNING a step is the sentinel's, a raise, or an instruction, which leaves run state and record alone. -/
theorem theRunEndsOnlyAtTheSentinelOrAnUnsupportedWord :
    Obligations.TheRunEndsOnlyAtTheSentinelOrAnUnsupportedWord := by
  intro s t hrun h
  cases step_next h with
  | terminal hr ht => exact absurd hrun hr
  | sentinel hr hpc ht =>
    subst ht
    exact ⟨iff_of_true rfl hpc, fun _ => rfl, iff_of_false (by simp) fun hne => hne.1 hpc,
      fun _ _ hne => absurd hpc hne, fun _ => rfl⟩
  | raised hr hpc iw hf r hd ht =>
    subst ht
    refine ⟨iff_of_false (by simp) hpc, fun heq => absurd heq hpc, iff_of_true rfl ⟨hpc, iw, r, hf, hd⟩,
      fun iw' r' _ hf' hd' => ?_, fun hnot => absurd rfl hnot⟩
    cases hf.symm.trans hf'
    cases hd.symm.trans hd'
    rfl
  | executed hr hpc iw hf i hd hexec =>
    obtain ⟨-, hrun', hfault, -, -⟩ := (exec_next hexec).frame
    have hrunning : t.run = .running := hrun'.trans hr
    have decoded {iw' : InstrWord} {r : Unsupported} (hf' : fetch s = some iw') : decodeWord iw' ≠ .error r := by
      cases hf.symm.trans hf'
      rw [hd]
      nofun
    exact ⟨iff_of_false (by simp [hrunning]) hpc, fun heq => absurd heq hpc,
      iff_of_false (by simp [hrunning]) fun ⟨_, _, _, hf', hd'⟩ => decoded hf' hd',
      fun _ _ _ hf' hd' => absurd hd' (decoded hf'), fun _ => hfault⟩

/-- Settles O45: after the fetch a raise writes the run state and the record. -/
theorem raisingChangesOnlyTheRunTheRecordAndTheTotal : Obligations.RaisingChangesOnlyTheRunTheRecordAndTheTotal :=
  fun _ _ _ hs hf hd => ⟨_, step_of_raise hs hf hd, rfl, rfl, rfl, fun _ => rfl, rfl, fun _ => rfl, rfl, rfl⟩

end Sys2Proof.Proofs
end

section
/-! SUPPORT. Runs of several steps (R169): one step and the rest, and a run that stays where it stopped. -/

namespace Sys2Proof.Machine

section Runs
variable {s s' t : State} {k : Nat}

theorem runFor_succ (h : step s = .next s') : runFor (k + 1) s = runFor k s' := by
  simp only [runFor, Host.Core.run, core, h]

/-- A run of one step more that answers a state took its first step and answers it from there. -/
theorem runFor_succ_next (h : runFor (k + 1) s = .next t) : ∃ s', step s = .next s' ∧ runFor k s' = .next t := by
  cases hstep : step s with
  | next s' => exact ⟨s', rfl, runFor_succ hstep ▸ h⟩
  | fault f =>
    simp only [runFor, Host.Core.run, core, hstep] at h
    cases h
  | refused r =>
    simp only [runFor, Host.Core.run, core, hstep] at h
    cases h

/-- R168: a state that shows a result is STOPPED. -/
theorem stopped_of_result {v : Word} (h : s.result = some v) : s.run = .stopped := by
  by_contra hrun
  rw [State.result, if_neg hrun] at h
  cases h

theorem CompletesWith.succ {v : Word} (h : CompletesWith k s v) : CompletesWith (k + 1) s v := by
  induction k generalizing s with
  | zero =>
    obtain ⟨t, ht, hresult⟩ := h
    cases ht
    have hterminal : s.run ≠ .running := by simp [stopped_of_result hresult]
    exact ⟨s, (runFor_succ (step_of_terminal hterminal)).trans rfl, hresult⟩
  | succ k ih =>
    obtain ⟨t, ht, hresult⟩ := h
    obtain ⟨s', hstep, hrest⟩ := runFor_succ_next ht
    obtain ⟨u, hu, hresult'⟩ := ih ⟨t, hrest, hresult⟩
    exact ⟨u, (runFor_succ hstep).trans hu, hresult'⟩

end Runs

end Sys2Proof.Machine
end

section
/-! PROOFS. The result of a run: 43_jalr.md, 50_fetch_dispatch.md section 3. -/

namespace Sys2Proof.Proofs

open Sys2Proof.Machine Sys2Proof.Says

/-- Settles O57: one more step at a time. -/
theorem aCompletedRunKeepsItsResult : Obligations.ACompletedRunKeepsItsResult := by
  intro k j s v h hkj
  induction j, hkj using Nat.le_induction with
  | base => exact h
  | succ j _ ih => exact ih.succ

/-- Settles O56: the target of the jump is the sentinel, whose test is the next step. -/
theorem aTopLevelReturnStopsTheRun : Obligations.ATopLevelReturnStopsTheRun := by
  refine ⟨fun s iw rd rs1 imm ⟨hr, hpc⟩ hf hd hsentinel => ?_, by decide, fun s h => ?_⟩
  · have htarget : s.effAddr rs1 imm = s.plat.sentinel :=
      BitVec.eq_of_toNat_eq (Int.ofNat_inj.mp ((isMod_add_imm12 (s.readReg rs1) imm).trans hsentinel.symm))
    have hstep : step s = .next ((s.afterFetch iw).retire .jump (s.effAddr rs1 imm)) := by
      rw [step_of_fetch hr hpc hf, dispatchWord_ok hd, exec_jalr]
      rfl
    have hnext := step_of_sentinel (s := (s.afterFetch iw).retire .jump (s.effAddr rs1 imm)) hr htarget
    refine ⟨_, _, hstep, htarget, hr, fun _ => rfl, if_neg ?_, rfl, hnext, rfl, fun _ => rfl, rfl, rfl⟩
    simp [hr]
  · have hret := isMod_add_imm12 (s.readReg 1) 0
    rw [show imm12 0 = 0#64 from rfl, BitVec.add_zero] at hret
    rwa [← h]

end Sys2Proof.Proofs
end

section
/-! SUPPORT. Placing a word where the next step fetches it (log 6): what `makeFetchable` makes true, and that it changes nothing
where it is true already. -/

namespace Sys2Proof.Machine

theorem mapped_of_region {p : Platform} {g : Region} {a : Word} (hg : g ∈ p.regions) (ha : Region.holds g a = true) :
    mapped p a = true := by
  rw [mapped, Bool.or_eq_true, List.any_eq_true]
  exact .inr ⟨g, hg, ha⟩

/-- A one-byte region holds its address. -/
theorem holds_singleton (a : Word) : Region.holds ⟨a.toNat, 1⟩ a = true := by
  simp [Region.holds]

/-- The four one-byte regions are at the four addresses of the fetch. -/
theorem mem_fetchRegions (pc : Word) {i : Nat} (hi : i < 4) :
    (⟨(pc + BitVec.ofNat 64 i).toNat, 1⟩ : Region) ∈ fetchRegions pc := by
  have hcases : i = 0 ∨ i = 1 ∨ i = 2 ∨ i = 3 := by omega
  obtain rfl | rfl | rfl | rfl := hcases <;> simp [fetchRegions]

section Placing
variable (s : State)

/-- The fetch's bytes were mapped, and the platform's regions are kept, or their own regions are added. -/
theorem makeFetchable_mapped : mappedRange s.makeFetchable.plat s.pc 4 = true := by
  refine mappedRange_iff.mpr fun i hi => ?_
  by_cases hm : mappedRange s.plat s.pc 4 = true
  · have hkept : s.makeFetchable.plat.regions = s.plat.regions := if_pos hm
    have hbefore := mappedRange_iff.mp hm i hi
    rw [mapped] at hbefore ⊢
    rwa [hkept]
  · have hadded : s.makeFetchable.plat.regions = fetchRegions s.pc ++ s.plat.regions := if_neg hm
    refine mapped_of_region ?_ (holds_singleton _)
    rw [hadded]
    exact List.mem_append_left _ (mem_fetchRegions s.pc hi)

theorem makeFetchable_pc_ne_sentinel : s.pc ≠ s.makeFetchable.plat.sentinel := by
  have hsucc : s.pc ≠ s.pc + 1 := by bv_omega
  by_cases h : s.pc = s.plat.sentinel
  · rwa [show s.makeFetchable.plat.sentinel = s.pc + 1 from if_pos h]
  · rwa [show s.makeFetchable.plat.sentinel = s.plat.sentinel from if_neg h]

variable {s}

theorem makeFetchable_eq_self (hr : s.run = .running) (hpc : s.pc ≠ s.plat.sentinel)
    (hm : mappedRange s.plat s.pc 4 = true) : s.makeFetchable = s := by
  rw [State.makeFetchable, if_pos hr, if_neg hpc, if_pos hm, ← hr]

/-- The fetch reads back the word just placed. -/
theorem fetch_putWordAtPc (hwf : Memory.wf s.mem = true) (hm : mappedRange s.plat s.pc 4 = true) (iw : InstrWord) :
    fetch (s.putWordAtPc iw) = some iw := by
  refine fetch_eq_some.mpr ⟨hm, BitVec.eq_of_toNat_eq ?_⟩
  rw [putWordAtPc_mem, putWordAtPc_pc, loadBytes_storeBytes hwf (by decide), BitVec.toNat_setWidth, BitVec.toNat_ofNat]
  have := iw.isLt
  omega

end Placing

end Sys2Proof.Machine
end

section
/-! PROOFS. One step, the load of a program and the launch: 50_fetch_dispatch.md section 1, 70_reset_and_hazards.md. -/

namespace Sys2Proof.Proofs

open Sys2Proof.Machine Sys2Proof.Says

/-- Settles O55: the placed word is fetched, since its place is mapped and is not the sentinel. -/
theorem aPlacedWordIsTheNextOneRun : Obligations.APlacedWordIsTheNextOneRun := by
  intro s nbits w hwf
  refine ⟨⟨(s.withFetchWord nbits w).afterFetch (tableWord nbits w), ?_, rfl, fun _ => rfl, rfl⟩,
    fun hr hpc hmapped => ?_⟩
  · have hfetch : fetch (s.withFetchWord nbits w) = some (tableWord nbits w) :=
      fetch_putWordAtPc (s := s.makeFetchable) hwf (makeFetchable_mapped s) _
    exact step_of_fetch rfl (makeFetchable_pc_ne_sentinel s) hfetch
  · rw [State.withFetchWord, makeFetchable_eq_self hr hpc (mappedRange_iff.mpr hmapped)]
    rfl

/-- Settles O42: the bytes at the pc are the fetched word, and what it decodes to is well-formed. -/
theorem aStepRunsTheInstructionItsBytesDecodeTo : Obligations.AStepRunsTheInstructionItsBytesDecodeTo := by
  intro s i ⟨hr, hpc⟩ hmapped hdecode
  have hf := fetch_eq_some.mpr ⟨mappedRange_iff.mpr hmapped, (ofNat_loadBytes_four s.mem s.pc).symm⟩
  have hd : decodeWord (wordOfBytes (s.byteAt s.pc) (s.byteAt (s.pc + 1)) (s.byteAt (s.pc + 2)) (s.byteAt (s.pc + 3))) =
      .ok i := by
    rw [decode] at hdecode
    split at hdecode
    · next hok => cases hdecode; exact hok
    · cases hdecode
  obtain ⟨hwf, -⟩ := encodingADecodedWordGivesItsExaminedBits _ i hd
  refine ⟨hwf, s.afterFetch _, (step_of_fetch hr hpc hf).trans (dispatchWord_ok hd _), rfl, rfl, fun _ => rfl, rfl, rfl,
    rfl, rfl, rfl, fun hoff => ?_⟩
  rw [afterFetch_icache, hoff]
  rfl

end Sys2Proof.Proofs
end

section
/-! SUPPORT. The registers after a launch (R201). -/

namespace Sys2Proof.Machine

section Launch
variable (inp : LaunchInputs) (image : Memory) (s : State)

/-- R201, D27: a register without a role at launch is 0. -/
theorem launch_readReg_of_no_role {r : Reg} (hr : r ∉ [1, 2, 10, 11, 12, 13]) : (launch inp image s).readReg r = 0 := by
  have hne (k : Nat) (hk : BitVec.ofNat 5 k ∈ [1, 2, 10, 11, 12, 13]) : k ≠ r.toNat := by
    rintro rfl
    rw [BitVec.ofNat_toNat, BitVec.setWidth_eq] at hk
    exact hr hk
  simp [State.readReg, launch, launchRegs, hne 1 (by decide), hne 2 (by decide), hne 10 (by decide), hne 11 (by decide),
    hne 12 (by decide), hne 13 (by decide)]

theorem launch_inv (hwf : Memory.wf image = true) : (launch inp image s).Inv :=
  ⟨hwf, iff_of_false (by simp [launch]) (by simp [launch]), rfl⟩

theorem launch_countersBalance : (launch inp image s).CountersBalance := rfl

end Launch

end Sys2Proof.Machine
end

section
/-! PROOFS. The state after a launch: 70_reset_and_hazards.md section 1. -/

namespace Sys2Proof.Proofs

open Sys2Proof.Machine Sys2Proof.Says

/-- Settles O54: field by field; `State.reset` is a launch. -/
theorem launchSetsTheWholeState : Obligations.LaunchSetsTheWholeState := by
  refine ⟨fun inp image s t hwf ht => ?_, ?_⟩
  · subst ht
    have hsp : IsMod (s.plat.stackBase + BitVec.ofNat 64 s.plat.stackSize) (s.plat.stackBase.toNat + s.plat.stackSize) := by
      rw [IsMod, BitVec.toNat_add, BitVec.toNat_ofNat]
      omega
    exact ⟨rfl, rfl, hsp, rfl, rfl, rfl, rfl, fun r hr => launch_readReg_of_no_role inp image s hr, rfl, rfl, rfl, rfl, rfl,
      fun _ => rfl, rfl, launch_inv inp image s hwf, launch_countersBalance inp image s⟩
  · rw [← reset_is_launch State.reset rfl]
    exact ⟨launch_inv _ _ _ rfl, launch_countersBalance _ _ _⟩

end Sys2Proof.Proofs
end
